-- ==== Sys2Proof/Word.lean ====
section
/-! DEFINITION. The number formats of the machine: the 40-bit instruction word and the 32-bit signed band. -/

namespace Sys2Proof

/-- One instruction word: `IW` = 40 bits, bit 39 the most significant (30_encoding.md R84; the word form is the
spec's own choice D3, log 10). -/
abbrev Word40 := BitVec 40

/-- `INT32`, "the band": the integers from -2^31 to 2^31 - 1 (00_scope.md section 6.1). The accumulator, the memory
cells, the program counter and the instruction arguments are integers of this set; the model holds them as `Int` and
proves that no step leaves the band (log 16). -/
abbrev InBand (v : Int) : Prop := -2147483648 ≤ v ∧ v ≤ 2147483647

end Sys2Proof
end

