-- ==== Sys2Proof/Syntax.lean ====
section
/-! DEFINITION. The instructions, one constructor per row of spec/opcode_table.json, and the record form of an
instruction in the machine-code artifact. -/

namespace Sys2Proof

/-- The sixteen instructions of 30_encoding.md R82, in the table's order. An argument is one signed integer, used
whole and unscaled (R83). -/
inductive Instr where
  /-- R180 -/
  | inc
  /-- R181 -/
  | dec
  /-- R182: the argument is an immediate literal -/
  | mov (literal : Int)
  /-- R190: the argument is a data address -/
  | load (addr : Int)
  /-- R191: the argument is a data address -/
  | store (addr : Int)
  /-- R192: the argument is the data address of a pointer cell -/
  | ld (addr : Int)
  /-- R193: the argument is the data address of a pointer cell -/
  | st (addr : Int)
  /-- R200: the argument is a data address -/
  | add (addr : Int)
  /-- R201: the argument is a data address -/
  | sub (addr : Int)
  /-- R202: the argument is a data address -/
  | mul (addr : Int)
  /-- R203: the argument is a data address -/
  | div (addr : Int)
  /-- R204: the argument is a data address -/
  | mod (addr : Int)
  /-- R171: the argument is a code address -/
  | jmp (target : Int)
  /-- R172: the argument is a code address -/
  | jz (target : Int)
  /-- R173: the argument is a code address -/
  | jnz (target : Int)
  /-- R170 -/
  | halt
deriving DecidableEq, Repr

/-- One instruction record of the machine-code artifact (30_encoding.md R80). The term (source line number and
original token text) has "zero effect on execution results" (R81). -/
structure Record where
  /-- "an integer index equal to its position" -/
  index : Int
  /-- the mnemonic -/
  opcode : String
  /-- the argument, absent for `inc`, `dec` and `halt` -/
  arg : Option Int
  /-- the diagnostic term, advisory only -/
  term : Option (Nat × String)
deriving DecidableEq, Repr

/-- The machine-code artifact, already parsed: the data section and the text section (30_encoding.md R93). -/
structure Artifact where
  dataSection : List Int
  textSection : List Record
deriving DecidableEq, Repr

end Sys2Proof
end

