-- ==== Sys2Proof/WellFormed.lean ====
section
/-! DEFINITION. When an instruction is well formed: its argument, where it has one, lies in `INT32`. -/

namespace Sys2Proof

/-- The argument of an instruction that takes one lies in `INT32` (30_encoding.md R83). That `inc`, `dec` and `halt`
carry no argument (R90) holds by the shape of their constructors. -/
def Instr.wellFormed : Instr → Bool
  | .inc => true
  | .dec => true
  | .mov literal => decide (InBand literal)
  | .load addr => decide (InBand addr)
  | .store addr => decide (InBand addr)
  | .ld addr => decide (InBand addr)
  | .st addr => decide (InBand addr)
  | .add addr => decide (InBand addr)
  | .sub addr => decide (InBand addr)
  | .mul addr => decide (InBand addr)
  | .div addr => decide (InBand addr)
  | .mod addr => decide (InBand addr)
  | .jmp target => decide (InBand target)
  | .jz target => decide (InBand target)
  | .jnz target => decide (InBand target)
  | .halt => true

end Sys2Proof
end

