-- ==== Sys2Proof/Decode.lean ====
section
/-! DEFINITION. The decoder, total on every 40-bit word and on every record, the encoder, and the correspondence of
the record form with the word form (30_encoding.md). -/

namespace Sys2Proof

/-- Why a word or a record is no instruction. Fetching one raises `IllegalInstruction` (60_exceptions.md R226). -/
inductive DecodeReject where
  /-- an opcode number outside the sixteen (R89) -/
  | illegalOpcode (opc : Nat)
  /-- a mnemonic outside the fixed set (R89, record form) -/
  | unknownMnemonic (mnemonic : String)
  /-- an argument on `inc`, `dec` or `halt`; in the word form, `ARG` not zero (R90) -/
  | strayArgument (opc : Nat) (arg : Int)
  /-- no argument on an opcode that takes one (R90, record form) -/
  | missingArgument (opc : Nat)
deriving DecidableEq, Repr

/-- `OPC` = bits 39:32, unsigned (R84). -/
def opcField (w : Word40) : Nat := (w.extractLsb' 32 8).toNat

/-- `ARG` = bits 31:0 (R84). -/
def argField (w : Word40) : BitVec 32 := w.extractLsb' 0 32

/-- `sext_32` (00_scope.md section 6.1). -/
def sext32 (v : BitVec 32) : Int :=
  if v.toNat < 2147483648 then (v.toNat : Int) else (v.toNat : Int) - 4294967296

/-- `enc32`, the inverse of `sext_32` on `INT32` (00_scope.md section 6.1). -/
def enc32 (v : Int) : BitVec 32 :=
  BitVec.ofNat 32 (if 0 ≤ v then v else v + 4294967296).toNat

/-- A format-N word is legal only with `ARG` = 0 (R90). -/
def withoutArgument (i : Instr) (opc : Nat) (arg : Int) : Except DecodeReject Instr :=
  if arg = 0 then .ok i else .error (.strayArgument opc arg)

/-- The decoder on words (R94), with the opcode numbers of R85. -/
def decode (w : Word40) : Except DecodeReject Instr :=
  let arg := sext32 (argField w)
  match opcField w with
  | 0x00 => withoutArgument .inc 0x00 arg
  | 0x01 => withoutArgument .dec 0x01 arg
  | 0x02 => .ok (.mov arg)
  | 0x03 => .ok (.load arg)
  | 0x04 => .ok (.store arg)
  | 0x05 => .ok (.ld arg)
  | 0x06 => .ok (.st arg)
  | 0x07 => .ok (.add arg)
  | 0x08 => .ok (.sub arg)
  | 0x09 => .ok (.mul arg)
  | 0x0A => .ok (.div arg)
  | 0x0B => .ok (.mod arg)
  | 0x0C => .ok (.jmp arg)
  | 0x0D => .ok (.jz arg)
  | 0x0E => .ok (.jnz arg)
  | 0x0F => withoutArgument .halt 0x0F arg
  | opc => .error (.illegalOpcode opc)

/-- The opcode number of an instruction (R85). -/
def opcodeOf : Instr → Nat
  | .inc => 0x00
  | .dec => 0x01
  | .mov _ => 0x02
  | .load _ => 0x03
  | .store _ => 0x04
  | .ld _ => 0x05
  | .st _ => 0x06
  | .add _ => 0x07
  | .sub _ => 0x08
  | .mul _ => 0x09
  | .div _ => 0x0A
  | .mod _ => 0x0B
  | .jmp _ => 0x0C
  | .jz _ => 0x0D
  | .jnz _ => 0x0E
  | .halt => 0x0F

/-- The argument of an instruction, where it takes one (R82). -/
def argumentOf : Instr → Option Int
  | .inc => none
  | .dec => none
  | .mov literal => some literal
  | .load addr => some addr
  | .store addr => some addr
  | .ld addr => some addr
  | .st addr => some addr
  | .add addr => some addr
  | .sub addr => some addr
  | .mul addr => some addr
  | .div addr => some addr
  | .mod addr => some addr
  | .jmp target => some target
  | .jz target => some target
  | .jnz target => some target
  | .halt => none

/-- The word of an instruction: `OPC · 2^32 + enc32(arg)`, and `OPC · 2^32` without an argument (R87, R88). -/
def encode (i : Instr) : Word40 :=
  match argumentOf i with
  | some arg => BitVec.ofNat 40 (opcodeOf i * 4294967296 + (enc32 arg).toNat)
  | none => BitVec.ofNat 40 (opcodeOf i * 4294967296)

/-- The fixed set of mnemonics, in R80's order: a mnemonic's place is its opcode number (R85). -/
def mnemonics : List String :=
  ["inc", "dec", "mov", "load", "store", "ld", "st", "add", "sub", "mul", "div", "mod", "jmp", "jz", "jnz", "halt"]

/-- The decoder on records (R94): the mnemonic must be in the set, and an argument must be present exactly for the
opcodes that take one (R82). The index and the term play no part (R81). -/
def decodeRecord (r : Record) : Except DecodeReject Instr :=
  match mnemonics.idxOf r.opcode, r.arg with
  | 0x00, none => .ok .inc
  | 0x01, none => .ok .dec
  | 0x0F, none => .ok .halt
  | 0x02, some arg => .ok (.mov arg)
  | 0x03, some arg => .ok (.load arg)
  | 0x04, some arg => .ok (.store arg)
  | 0x05, some arg => .ok (.ld arg)
  | 0x06, some arg => .ok (.st arg)
  | 0x07, some arg => .ok (.add arg)
  | 0x08, some arg => .ok (.sub arg)
  | 0x09, some arg => .ok (.mul arg)
  | 0x0A, some arg => .ok (.div arg)
  | 0x0B, some arg => .ok (.mod arg)
  | 0x0C, some arg => .ok (.jmp arg)
  | 0x0D, some arg => .ok (.jz arg)
  | 0x0E, some arg => .ok (.jnz arg)
  | opc, arg =>
    if opc < 16 then
      match arg with
      | some a => .error (.strayArgument opc a)
      | none => .error (.missingArgument opc)
    else .error (.unknownMnemonic r.opcode)

/-- A word that decodes to no instruction (`OPC` = 0xFF, R89). It stands in the program store for a record that is no
instruction, and at a code address `withFetchWord` has to skip (DESIGN CHOICE, safe, log 11). -/
def illegalWord : Word40 := 0xFF00000000

/-- The word of a record: its instruction's word (R88), or an illegal word where the record is illegal. -/
def Record.toWord (r : Record) : Word40 :=
  match decodeRecord r with
  | .ok i => encode i
  | .error _ => illegalWord

/-- The instruction word of `nbits` bits that the number `w` writes in the opcode table's numbering. The table's one
word has 40 bits and bit 0 is its least significant bit (log 10). -/
def tableWord (nbits w : Nat) : Word40 := BitVec.ofNat 40 (w % 2 ^ nbits)

/-- What the decoder reads from the word of `nbits` bits that `w` writes in the opcode table's numbering. -/
def decodeTableWord (nbits w : Nat) : Option Instr :=
  match decode (tableWord nbits w) with
  | .ok i => some i
  | .error _ => none

end Sys2Proof
end

