-- ==== Sys2Proof/Config.lean ====
section
/-! DEFINITION. The parameters of one run (00_scope.md R7) and the values `State.reset` takes for them. -/

namespace Sys2Proof

/-- What the ALU does with a raw result more than one 2^32 band out of range (R7, 40_datapath_signals.md R120). -/
inductive OvfPolicy where
  /-- full reduction modulo 2^32: the spec's choice -/
  | wrap
  /-- the nearer end of the band -/
  | saturate
  /-- the fatal fault `ArithmeticOverflow` -/
  | fault
deriving DecidableEq, Repr

/-- The parameters of 00_scope.md R7. R36 says that no step changes them. They stand in the state because the step
function has no other argument (log 1). -/
structure Params where
  /-- `MEM_SIZE`, the number of data cells -/
  memSize : Nat
  /-- `PROG` in the word form, one word per code address (30_encoding.md R84) -/
  prog : List Word40
  /-- `DATA_IMAGE`, the initial content of memory from address 0 up -/
  dataImage : List Int
  /-- `INPUT`, the character codes of the input tokens -/
  input : List Int
  /-- `LIMIT`, the instruction-count limit -/
  limit : Nat
  /-- `CHAR_MAX`, the largest character code -/
  charMax : Nat
  /-- `OVF_POLICY` -/
  ovfPolicy : OvfPolicy
  /-- `ACC_RESET` -/
  accReset : Int
  /-- `AR_RESET` -/
  arReset : Nat
  /-- `MEM_FILL`, the value of every cell the image does not cover -/
  memFill : Int
deriving DecidableEq, Repr

/-- The parameters of the state after reset. `charMax`, `ovfPolicy`, `accReset`, `arReset` and `memFill` have the
values of R7's table. The spec gives `memSize` and `limit` no value: the largest legal memory and the limit of
95_test_vectors.md's conventions are taken (DESIGN CHOICE, unsafe, log 2). No program, image or input is invented. -/
def Config.defaultParams : Params where
  memSize := 2147483648
  prog := []
  dataImage := []
  input := []
  limit := 1000
  charMax := 1114111
  ovfPolicy := .wrap
  accReset := 0
  arReset := 0
  memFill := 0

end Sys2Proof
end

