-- ==== Sys2Proof/Machine/State.lean ====
section
/-! DEFINITION. The machine's state (10_state.md R20), the terminal conditions (60_exceptions.md R221), the reasons a
step can stop, and the state after reset (R35). -/

namespace Sys2Proof.Machine

/-- The cause of a fatal fault, with the `info` it records for the host (60_exceptions.md R221). -/
inductive Cause where
  /-- R225: the offending address -/
  | addressRange (addr : Int)
  /-- R226: the `PC` of the instruction -/
  | illegalInstruction (pc : Int)
  /-- R227: the offending `PC` -/
  | fetchRange (pc : Int)
  /-- R228 -/
  | divideByZero
  /-- R229: the offending `ACC` -/
  | outputRange (value : Int)
  /-- R230: only with `OVF_POLICY = fault` -/
  | arithmeticOverflow
deriving DecidableEq, Repr

/-- A terminal condition that a step or a signal can raise (R220, R221). -/
inductive Condition where
  /-- R222 -/
  | halted
  /-- R223 -/
  | inputExhausted
  /-- R224 -/
  | limitExceeded
  /-- R225 to R230 -/
  | fault (cause : Cause)
deriving DecidableEq, Repr

/-- `STATUS` (10_state.md R26). Only `running` has a successor. -/
inductive Status where
  | running
  | halted
  | inputExhausted
  | limitExceeded
  | faulted (cause : Cause)
deriving DecidableEq, Repr

/-- `MEM` as data: the cells that do not hold `MEM_FILL`, by rising address. An address that is not listed reads as
`MEM_FILL`. The unit is the cell of `INT32`: the spec has no byte (20_memory.md R51, R56; log 9). -/
abbrev Memory := List (Nat × Int)

/-- The complete architectural state, the nine items of 10_state.md R20, and the run's parameters, which no step
changes (R36, log 1). -/
structure State where
  /-- the parameters of the run (R36) -/
  par : Params
  /-- `ACC`, the accumulator (R21) -/
  acc : Int
  /-- `AR`, the address register (R22) -/
  ar : Nat
  /-- `MEM`, the data memory (R27) -/
  mem : Memory
  /-- `IN`, the input queue, front token first (R28) -/
  inq : List Int
  /-- `OUT`, the output queue, oldest character first (R29) -/
  outq : List Int
  /-- `PC`, the program counter (R23) -/
  pc : Int
  /-- `TICK`, the tick counter (R24) -/
  tick : Nat
  /-- `ICOUNT`, the instruction counter (R25) -/
  icount : Nat
  /-- `STATUS` (R26) -/
  status : Status
deriving DecidableEq, Repr

/-- Why a step can stop without a next state. -/
inductive Fault where
  /-- Raised by `step` alone, in a state whose `STATUS` is not `Running`: "A state with any other STATUS has no step"
  (41_control_cycle.md R140). Safe: the hardware does not go on either (log 8). -/
  | noSuccessor
deriving DecidableEq, Repr

/-- Why the model can decline an instruction. -/
inductive Refusal where
  /-- Raised by `exec` alone, for an instruction without a meaning yet; no arm raises it now. Safe: it proves
  nothing. -/
  | notModelled (mnemonic : String)
deriving DecidableEq, Repr

/-- The state right after reset (10_state.md R35): a run with the parameters of `Config.defaultParams`, whose image is
empty. `ACC_RESET`, `AR_RESET` and `MEM_FILL` are the spec's own choices (log 3, log 4), the memory size and the limit
are the model's (log 2). -/
def State.reset : State where
  par := Config.defaultParams
  acc := 0
  ar := 0
  mem := []
  inq := []
  outq := []
  pc := 0
  tick := 0
  icount := 0
  status := .running

end Sys2Proof.Machine
end

