-- ==== Sys2Proof/Machine/Ops.lean ====
section
/-! DEFINITION. The shared operations: memory cells, the counters, the program counter, the fetch of an instruction
word, and the raising of a terminal condition. -/

namespace Sys2Proof.Machine

/-- The cell at address `a`; an unlisted address holds `fill`, the reset value (20_memory.md R51, R61). -/
def Memory.read (fill : Int) : Memory → Nat → Int
  | [], _ => fill
  | (k, v) :: rest, a => if k = a then v else Memory.read fill rest a

/-- Replaces the cell at address `a` (20_memory.md R58) and keeps the canonical form: a cell that comes to hold `fill`
is no longer listed. -/
def Memory.write (fill : Int) : Memory → Nat → Int → Memory
  | [], a, v => if v = fill then [] else [(a, v)]
  | (k, w) :: rest, a, v =>
    if a < k then (if v = fill then (k, w) :: rest else (a, v) :: (k, w) :: rest)
    else if a = k then (if v = fill then rest else (a, v) :: rest)
    else (k, w) :: Memory.write fill rest a v

/-- The canonical form: addresses strictly rising and below `size`, and no cell listed that holds `fill`. -/
abbrev Memory.wf (fill : Int) (size : Nat) (m : Memory) : Prop :=
  m.Pairwise (fun c d => c.1 < d.1) ∧ (∀ c ∈ m, c.2 ≠ fill) ∧ ∀ c ∈ m, c.1 < size

/-- The cells of a list of values laid out from address `a` up (70_reset_and_hazards.md R252). -/
def Memory.ofImage (fill : Int) : Nat → List Int → Memory
  | _, [] => []
  | a, v :: rest => if v = fill then Memory.ofImage fill (a + 1) rest else (a, v) :: Memory.ofImage fill (a + 1) rest

/-- `MEM[a]`, raw, with no port behaviour (00_scope.md section 6.2). -/
def readCell (s : State) (a : Nat) : Int := Memory.read s.par.memFill s.mem a

/-- `MEM[a] <- v`, raw, with no port behaviour (00_scope.md section 6.2). -/
def writeCell (a : Nat) (v : Int) (s : State) : State :=
  { s with mem := Memory.write s.par.memFill s.mem a v }

/-- `tick()` (00_scope.md section 6.2): one tick for a completed signal (41_control_cycle.md R144). -/
def tickOnce (s : State) : State := { s with tick := s.tick + 1 }

/-- `PC <- PC + 1` (41_control_cycle.md R145). `PC` is an integer, so it does not wrap (10_state.md R23). -/
def advancePc (s : State) : State := { s with pc := s.pc + 1 }

/-- `PC <- target`, unchecked (41_control_cycle.md R145). -/
def jumpTo (target : Int) (s : State) : State := { s with pc := target }

/-- `ICOUNT <- ICOUNT + 1`, after a successful decode (41_control_cycle.md R141, the spec's decision D13, log 13). -/
def countInstruction (s : State) : State := { s with icount := s.icount + 1 }

/-- The terminal status of a condition (60_exceptions.md R221). -/
def Condition.status : Condition → Status
  | .halted => .halted
  | .inputExhausted => .inputExhausted
  | .limitExceeded => .limitExceeded
  | .fault cause => .faulted cause

/-- Raising a condition, the machine's one way to take an exceptional event: "`STATUS` becomes the condition's
terminal status …; every other piece of state keeps the value it has at that moment" (60_exceptions.md R233). Nothing
is saved and no handler runs (R220), and there is no return to model: "no transition leaves them" (R234). -/
def raiseCondition (c : Condition) (s : State) : State := { s with status := c.status }

/-- The numeric code of a status (60_exceptions.md R221; nothing in the machine reads it). -/
def Status.code : Status → Nat
  | .running => 0
  | .halted => 1
  | .inputExhausted => 2
  | .limitExceeded => 3
  | .faulted _ => 4

/-- The numeric code of a fault cause (60_exceptions.md R221; nothing in the machine reads it). -/
def Cause.code : Cause → Nat
  | .addressRange _ => 1
  | .illegalInstruction _ => 2
  | .fetchRange _ => 3
  | .divideByZero => 4
  | .outputRange _ => 5
  | .arithmeticOverflow => 6

/-- The `info` a fault records for the host (60_exceptions.md R221). -/
def Cause.info : Cause → Option Int
  | .addressRange addr => some addr
  | .illegalInstruction pc => some pc
  | .fetchRange pc => some pc
  | .divideByZero => none
  | .outputRange value => some value
  | .arithmeticOverflow => none

/-- "if `ICOUNT >= LIMIT`", the first check of every step (41_control_cycle.md R148). -/
def limitReached (s : State) : Bool := decide (s.par.limit ≤ s.icount)

/-- The word at code address `PC`, where there is one: `0 <= PC < PROG_LEN` (41_control_cycle.md R142). It reads only
`PROG` and `PC`. -/
def fetchWord (s : State) : Option Word40 := if 0 ≤ s.pc then s.par.prog[s.pc.toNat]? else none

/-- `prog` with `w` at code address `n`. Where the program is shorter, the addresses before `n` get an illegal word
(log 11). -/
def placeWord : List Word40 → Nat → Word40 → List Word40
  | [], 0, w => [w]
  | [], n + 1, w => illegalWord :: placeWord [] n w
  | _ :: rest, 0, w => w :: rest
  | x :: rest, n + 1, w => x :: placeWord rest n w

/-- The largest code address a program can have (00_scope.md R7: `PROG_LEN <= 2^31 - 1`). -/
def lastCodeAddress : Int := 2147483646

/-- `PC` where it can be a code address, else the reset entry point. -/
def fetchableCodeAddress (pc : Int) : Int := if 0 ≤ pc ∧ pc ≤ lastCodeAddress then pc else 0

end Sys2Proof.Machine
end

