-- ==== Sys2Proof/Machine/Flags.lean ====
section
/-! DEFINITION. The zero query, which is the machine's only flag computation (10_state.md R30), and the ALU: the raw
operations on unbounded integers and the correction step (40_datapath_signals.md section 5). -/

namespace Sys2Proof.Machine

/-- `zero()`: a query of `ACC` as it is now; nothing is latched (40_datapath_signals.md R117). -/
def zero (s : State) : Bool := decide (s.acc = 0)

/-- `wrap32(v) = ((v + 2^31) mod 2^32) - 2^31` (00_scope.md section 6.1). -/
def wrap32 (v : Int) : Int := (v + 2147483648) % 4294967296 - 2147483648

/-- `corr1`, the source's one-step correction (00_scope.md section 6.1, 40_datapath_signals.md R118). -/
def corr1 (v : Int) : Int :=
  if v > 2147483647 then v - 4294967296
  else if v < -2147483648 then v + 4294967296
  else v

/-- The interval where one step is enough: -3·2^31 to 3·2^31 - 1 (40_datapath_signals.md R118, R119). -/
abbrev OneStep (raw : Int) : Prop := -6442450944 ≤ raw ∧ raw ≤ 6442450943

/-- `corr`, the ALU's correction: one step where that is enough, else as `OVF_POLICY` says (40_datapath_signals.md
R118, R120; the policy is the spec's decision D5, log 6). -/
def corr (policy : OvfPolicy) (raw : Int) : Except Condition Int :=
  if OneStep raw then .ok (corr1 raw)
  else
    match policy with
    | .wrap => .ok (wrap32 raw)
    | .saturate => .ok (if raw > 6442450943 then 2147483647 else -2147483648)
    | .fault => .error (.fault .arithmeticOverflow)

/-- `floor_div(a, b)`, the quotient rounded toward negative infinity (00_scope.md section 6.1, R121). -/
def floorDiv (a b : Int) : Int := a.fdiv b

/-- `floor_mod(a, b) = a - b·floor_div(a, b)` (00_scope.md section 6.1, R121). -/
def floorMod (a b : Int) : Int := a - b * floorDiv a b

/-- The operations of `no_arg_op` (40_datapath_signals.md R113). -/
inductive NoArgOp where
  | inc
  | dec
deriving DecidableEq, Repr

/-- The operations of `arg_op` (40_datapath_signals.md R114). -/
inductive ArgOp where
  | add
  | sub
  | mul
  | div
  | mod
deriving DecidableEq, Repr

/-- The raw result of `no_arg_op`, an unbounded integer (R113). -/
def noArgRaw : NoArgOp → Int → Int
  | .inc, a => a + 1
  | .dec, a => a - 1

/-- The raw result of `arg_op`, an unbounded integer; `a` is `ACC` and `b` the cell (R114, 45_arithmetic.md R206).
`div` and `mod` by 0 raise `DivideByZero` before anything changes (R122, the spec's decision D6, log 17). -/
def argRaw (op : ArgOp) (a b : Int) : Except Condition Int :=
  match op with
  | .add => .ok (a + b)
  | .sub => .ok (a - b)
  | .mul => .ok (a * b)
  | .div => if b = 0 then .error (.fault .divideByZero) else .ok (floorDiv a b)
  | .mod => if b = 0 then .error (.fault .divideByZero) else .ok (floorMod a b)

/-- The corrected result of `arg_op`, or the condition it raises (R114). -/
def argResult (policy : OvfPolicy) (op : ArgOp) (a b : Int) : Except Condition Int :=
  match argRaw op a b with
  | .ok raw => corr policy raw
  | .error c => .error c

end Sys2Proof.Machine
end

