-- ==== Sys2Proof/Machine/Operands.lean ====
section
/-! DEFINITION. The operand forms: the address check, the direct address and the one-level indirect address. The
immediate literal and the code address need no computation: they are the instruction's argument as it stands
(30_encoding.md R83). -/

namespace Sys2Proof.Machine

/-- A value as a data address: valid iff `0 <= v < MEM_SIZE` (20_memory.md R51, R55). -/
def dataAddress (memSize : Nat) (v : Int) : Option Nat :=
  if 0 ≤ v ∧ v < (memSize : Int) then some v.toNat else none

/-- The effective address of the direct form: the argument (44_memory_access.md, "`EA = arg`"). -/
def directAddress (s : State) (arg : Int) : Option Nat := dataAddress s.par.memSize arg

/-- The address that the pointer in cell `a` names. The pointer is read raw, at ports too (40_datapath_signals.md
R115). -/
def pointerAddress (s : State) (a : Nat) : Option Nat := dataAddress s.par.memSize (readCell s a)

/-- The effective address of the indirect form: the content of the cell at the argument, one level
(44_memory_access.md, "`EA = MEM[arg]`"). -/
def indirectAddress (s : State) (arg : Int) : Option Nat :=
  match directAddress s arg with
  | some a => pointerAddress s a
  | none => none

end Sys2Proof.Machine
end

