-- ==== Sys2Proof/Machine/Signals.lean ====
section
/-! DEFINITION. The DataPath's signals (40_datapath_signals.md) and the ControlUnit's sequencing of them
(41_control_cycle.md R144, R146). A signal either completes with the new state or raises one condition. A failing
signal hands no state back, so it changes nothing (R123, the spec's decision D12, log 12). -/

namespace Sys2Proof.Machine

/-- The seven signals that change state (40_datapath_signals.md R110 to R116). The eighth, `zero()`, is a query. -/
inductive Signal where
  | latchAddress (addr : Int)
  | addressByAddress
  | latchAccumulator
  | write
  | setAccumulator (value : Int)
  | noArgOp (op : NoArgOp)
  | argOp (op : ArgOp)
deriving DecidableEq, Repr

/-- `latch_address(addr)` (R110). -/
def latchAddress (addr : Int) (s : State) : Except Condition State :=
  match directAddress s addr with
  | some a => .ok { s with ar := a }
  | none => .error (.fault (.addressRange addr))

/-- `address_by_address()` (R115; the range check is the spec's decision D10, log 19). -/
def addressByAddress (s : State) : Except Condition State :=
  match pointerAddress s s.ar with
  | some p => .ok { s with ar := p }
  | none => .error (.fault (.addressRange (readCell s s.ar)))

/-- `latch_accumulator()` (R111): at address 0 the input port, elsewhere the cell. -/
def latchAccumulator (s : State) : Except Condition State :=
  if s.ar = 0 then
    match s.inq with
    | [] => .error .inputExhausted
    | c :: rest => .ok { s with acc := c, inq := rest }
  else .ok { s with acc := readCell s s.ar }

/-- `write()` (R112): at address 1 the output port, elsewhere the cell. The range check of the port is the spec's
decision D7 (log 18). -/
def writeAccumulator (s : State) : Except Condition State :=
  if s.ar = 1 then
    if s.acc < 0 ∨ (s.par.charMax : Int) < s.acc then .error (.fault (.outputRange s.acc))
    else .ok { s with outq := s.outq ++ [s.acc] }
  else .ok (writeCell s.ar s.acc s)

/-- `set_accumulator(value)` (R116). -/
def setAccumulator (value : Int) (s : State) : Except Condition State := .ok { s with acc := value }

/-- `no_arg_op(op)` (R113). With `ACC` in `INT32` the raw result is in the one-step interval and nothing fails. -/
def noArgOp (op : NoArgOp) (s : State) : Except Condition State :=
  match corr s.par.ovfPolicy (noArgRaw op s.acc) with
  | .ok v => .ok { s with acc := v }
  | .error c => .error c

/-- `arg_op(op)` (R114): the second operand is the raw cell at `AR`, at ports too. -/
def argOp (op : ArgOp) (s : State) : Except Condition State :=
  match argResult s.par.ovfPolicy op s.acc (readCell s s.ar) with
  | .ok v => .ok { s with acc := v }
  | .error c => .error c

/-- One signal. -/
def runSignal : Signal → State → Except Condition State
  | .latchAddress addr => latchAddress addr
  | .addressByAddress => addressByAddress
  | .latchAccumulator => latchAccumulator
  | .write => writeAccumulator
  | .setAccumulator value => setAccumulator value
  | .noArgOp op => noArgOp op
  | .argOp op => argOp op

/-- The ControlUnit's sequence for a non-jump instruction: each signal followed by its tick, and the `PC` update last
(41_control_cycle.md R144, R146). A failing signal raises its condition in the state the completed signals left
(60_exceptions.md R231, the spec's decision D12, log 12). -/
def runSignals : List Signal → State → State
  | [], s => advancePc s
  | sig :: rest, s =>
    match runSignal sig s with
    | .ok s' => runSignals rest (tickOnce s')
    | .error c => raiseCondition c s

end Sys2Proof.Machine
end

