-- ==== Sys2Proof/Machine/Accumulator.lean ====
section
/-! DEFINITION. The accumulator-only instructions (43_accumulator_ops.md). -/

namespace Sys2Proof.Machine

/-- `inc` (R180). -/
def execInc (s : State) : Host.Outcome State Fault Refusal := .next (runSignals [.noArgOp .inc] s)

/-- `dec` (R181). -/
def execDec (s : State) : Host.Outcome State Fault Refusal := .next (runSignals [.noArgOp .dec] s)

/-- `mov arg` (R182). -/
def execMov (literal : Int) (s : State) : Host.Outcome State Fault Refusal :=
  .next (runSignals [.setAccumulator literal] s)

end Sys2Proof.Machine
end

