-- ==== Sys2Proof/Machine/Arithmetic.lean ====
section
/-! DEFINITION. The arithmetic instructions with a memory operand (45_arithmetic.md, skeleton R207). -/

namespace Sys2Proof.Machine

/-- `add arg` (R200). -/
def execAdd (addr : Int) (s : State) : Host.Outcome State Fault Refusal :=
  .next (runSignals [.latchAddress addr, .argOp .add] s)

/-- `sub arg` (R201). -/
def execSub (addr : Int) (s : State) : Host.Outcome State Fault Refusal :=
  .next (runSignals [.latchAddress addr, .argOp .sub] s)

/-- `mul arg` (R202). -/
def execMul (addr : Int) (s : State) : Host.Outcome State Fault Refusal :=
  .next (runSignals [.latchAddress addr, .argOp .mul] s)

/-- `div arg` (R203). -/
def execDiv (addr : Int) (s : State) : Host.Outcome State Fault Refusal :=
  .next (runSignals [.latchAddress addr, .argOp .div] s)

/-- `mod arg` (R204). -/
def execMod (addr : Int) (s : State) : Host.Outcome State Fault Refusal :=
  .next (runSignals [.latchAddress addr, .argOp .mod] s)

end Sys2Proof.Machine
end

