-- ==== Sys2Proof/Machine/Control.lean ====
section
/-! DEFINITION. The control-transfer instructions (42_control_flow.md). Each meaning is the body of "execute d"
(41_control_cycle.md R140). -/

namespace Sys2Proof.Machine

/-- `halt` (R170): raises `Halted`; no tick, no `PC` change. -/
def execHalt (s : State) : Host.Outcome State Fault Refusal := .next (raiseCondition .halted s)

/-- `jmp arg` (R171). -/
def execJmp (target : Int) (s : State) : Host.Outcome State Fault Refusal := .next (tickOnce (jumpTo target s))

/-- `jz arg` (R172): jumps iff `zero()`; one tick either way. -/
def execJz (target : Int) (s : State) : Host.Outcome State Fault Refusal :=
  .next (tickOnce (if zero s then jumpTo target s else advancePc s))

/-- `jnz arg` (R173): jumps iff not `zero()`; one tick either way. -/
def execJnz (target : Int) (s : State) : Host.Outcome State Fault Refusal :=
  .next (tickOnce (if zero s then advancePc s else jumpTo target s))

end Sys2Proof.Machine
end

