-- ==== Sys2Proof/Machine/MemoryAccess.lean ====
section
/-! DEFINITION. The memory-access instructions (44_memory_access.md). -/

namespace Sys2Proof.Machine

/-- `load arg` (R190). -/
def execLoad (addr : Int) (s : State) : Host.Outcome State Fault Refusal :=
  .next (runSignals [.latchAddress addr, .latchAccumulator] s)

/-- `store arg` (R191). -/
def execStore (addr : Int) (s : State) : Host.Outcome State Fault Refusal :=
  .next (runSignals [.latchAddress addr, .write] s)

/-- `ld arg` (R192). -/
def execLd (addr : Int) (s : State) : Host.Outcome State Fault Refusal :=
  .next (runSignals [.latchAddress addr, .addressByAddress, .latchAccumulator] s)

/-- `st arg` (R193). -/
def execSt (addr : Int) (s : State) : Host.Outcome State Fault Refusal :=
  .next (runSignals [.latchAddress addr, .addressByAddress, .write] s)

end Sys2Proof.Machine
end

