-- ==== Sys2Proof/Machine/Dispatch.lean ====
section
/-! DEFINITION. The dispatch of a decoded instruction to its meaning, "execute d" of 41_control_cycle.md R140. -/

namespace Sys2Proof.Machine

def exec (i : Instr) (s : State) : Host.Outcome State Fault Refusal :=
  match i with
  | .inc => Sys2Proof.Machine.execInc s
  | .dec => Sys2Proof.Machine.execDec s
  | .mov literal => Sys2Proof.Machine.execMov literal s
  | .load addr => Sys2Proof.Machine.execLoad addr s
  | .store addr => Sys2Proof.Machine.execStore addr s
  | .ld addr => Sys2Proof.Machine.execLd addr s
  | .st addr => Sys2Proof.Machine.execSt addr s
  | .add addr => Sys2Proof.Machine.execAdd addr s
  | .sub addr => Sys2Proof.Machine.execSub addr s
  | .mul addr => Sys2Proof.Machine.execMul addr s
  | .div addr => Sys2Proof.Machine.execDiv addr s
  | .mod addr => Sys2Proof.Machine.execMod addr s
  | .jmp target => Sys2Proof.Machine.execJmp target s
  | .jz target => Sys2Proof.Machine.execJz target s
  | .jnz target => Sys2Proof.Machine.execJnz target s
  | .halt => Sys2Proof.Machine.execHalt s

end Sys2Proof.Machine
end

