-- ==== Sys2Proof/Machine/Step.lean ====
section
/-! DEFINITION. One machine step (41_control_cycle.md R140). -/

namespace Sys2Proof.Machine

/-- One step: a state whose `STATUS` is not `Running` has none; else the limit check, the fetch, the decode, the
instruction count and the instruction, in this order (R140, R232; the order is the spec's decisions D13, D14 and D24,
log 13, log 14). -/
def step (s : State) : Host.Outcome State Fault Refusal :=
  if s.status = .running then
    if limitReached s then .next (raiseCondition .limitExceeded s)
    else
      match fetchWord s with
      | none => .next (raiseCondition (.fault (.fetchRange s.pc)) s)
      | some w =>
        match decode w with
        | .error _ => .next (raiseCondition (.fault (.illegalInstruction s.pc)) s)
        | .ok i => exec i (countInstruction s)
  else .fault .noSuccessor

/-- `s` with the instruction word of `nbits` bits that `w` writes (in the opcode table's numbering) stored where `step`
fetches its next instruction, and with what the fetch needs: `STATUS = Running`, a `PC` that is a code address (kept
where it is one) and a limit not yet reached. It stands for the load of a program from outside (log 5). -/
def State.withFetchWord (s : State) (nbits w : Nat) : State :=
  { s with
    par := { s.par with
      prog := placeWord s.par.prog (fetchableCodeAddress s.pc).toNat (tableWord nbits w)
      limit := max s.par.limit (s.icount + 1) }
    pc := fetchableCodeAddress s.pc
    status := .running }

end Sys2Proof.Machine
end

