-- ==== Sys2Proof/Machine/Boot.lean ====
section
/-! DEFINITION. Reset of one run from its parameters (70_reset_and_hazards.md section 1), the loading of an artifact's
records (30_encoding.md R81, R83, R93), and the result the host reads at the end (60_exceptions.md R236). -/

namespace Sys2Proof.Machine

/-- Why reset refuses a parameter set: no run exists (70_reset_and_hazards.md R255). The last four are the constraints
of R7 and R35 on the parameters the spec itself adds (log 15). -/
inductive ResetRefusal where
  | memSizeNotPositive
  | memSizeTooLarge
  | limitNotPositive
  | programTooLong
  | imageTooLong
  | imageValueOutsideBand
  | tokenOutOfRange
  /-- a record's index differs from its position (R81) -/
  | recordIndexWrong (position : Nat)
  /-- a record's argument is outside `INT32` (R83) -/
  | argumentOutsideBand (position : Nat)
  | charMaxOutsideBand
  | accResetOutsideBand
  | arResetOutOfRange
  | memFillOutsideBand
deriving DecidableEq, Repr

/-- The check of the parameters (70_reset_and_hazards.md R255); `none` where none refuses. -/
def parameterRefusal (p : Params) : Option ResetRefusal :=
  if p.memSize = 0 then some .memSizeNotPositive
  else if 2147483648 < p.memSize then some .memSizeTooLarge
  else if p.limit = 0 then some .limitNotPositive
  else if 2147483647 < p.prog.length then some .programTooLong
  else if p.memSize < p.dataImage.length then some .imageTooLong
  else if ¬ ∀ v ∈ p.dataImage, InBand v then some .imageValueOutsideBand
  else if ¬ ∀ c ∈ p.input, 0 ≤ c ∧ c ≤ (p.charMax : Int) then some .tokenOutOfRange
  else if 2147483647 < p.charMax then some .charMaxOutsideBand
  else if ¬ InBand p.accReset then some .accResetOutsideBand
  else if p.memSize ≤ p.arReset then some .arResetOutOfRange
  else if ¬ InBand p.memFill then some .memFillOutsideBand
  else none

/-- The state that reset builds (R251 to R254). -/
def resetState (p : Params) : State where
  par := p
  acc := p.accReset
  ar := p.arReset
  mem := Memory.ofImage p.memFill 0 p.dataImage
  inq := p.input
  outq := []
  pc := 0
  tick := 0
  icount := 0
  status := .running

/-- Reset: the parameters are checked, then the state is built (R250). -/
def boot (p : Params) : Except ResetRefusal State :=
  match parameterRefusal p with
  | some r => .error r
  | none => .ok (resetState p)

/-- The program store of a list of records whose first one stands at `position`. A wrong index (R81, D23) and an
argument outside `INT32` (R83, D2) are refused by the loader; an illegal record is not: it faults when it is fetched
(R94). -/
def loadRecords : Nat → List Record → Except ResetRefusal (List Word40)
  | _, [] => .ok []
  | position, r :: rest =>
    if r.index ≠ (position : Int) then .error (.recordIndexWrong position)
    else if ¬ ∀ a ∈ r.arg, InBand a then .error (.argumentOutsideBand position)
    else
      match loadRecords (position + 1) rest with
      | .ok words => .ok (r.toWord :: words)
      | .error e => .error e

/-- Reset from an artifact (R93) and the run's other parameters. -/
def bootArtifact (a : Artifact) (p : Params) : Except ResetRefusal State :=
  match loadRecords 0 a.textSection with
  | .ok words => boot { p with prog := words, dataImage := a.dataSection }
  | .error e => .error e

/-- What the host reads when the run has stopped (60_exceptions.md R236). -/
structure Result where
  output : List Int
  instructions : Nat
  ticks : Nat
  status : Status
deriving DecidableEq, Repr

/-- The result of a run, read from its last state (60_exceptions.md R236). -/
def result (s : State) : Result where
  output := s.outq
  instructions := s.icount
  ticks := s.tick
  status := s.status

end Sys2Proof.Machine
end

