-- ==== Sys2Proof/Machine/ClassTable.lean ====
section
/-! DEFINITION. The ControlUnit's dispatch table as data (41_control_cycle.md R143): the class, the signal sequence and
the ticks of every instruction. The meanings do not read it; statements compare them with it. -/

namespace Sys2Proof.Machine

/-- The eight opcode classes (R143). -/
inductive OpClass where
  | halt
  | unconditionalJump
  | conditionalJump
  | noOperandArithmetic
  | immediateLoad
  | directMemory
  | indirectMemory
  | arithmeticWithOperand
deriving DecidableEq, Repr

/-- The class of an instruction (R143, 30_encoding.md R82). -/
def opClass : Instr → OpClass
  | .inc => .noOperandArithmetic
  | .dec => .noOperandArithmetic
  | .mov _ => .immediateLoad
  | .load _ => .directMemory
  | .store _ => .directMemory
  | .ld _ => .indirectMemory
  | .st _ => .indirectMemory
  | .add _ => .arithmeticWithOperand
  | .sub _ => .arithmeticWithOperand
  | .mul _ => .arithmeticWithOperand
  | .div _ => .arithmeticWithOperand
  | .mod _ => .arithmeticWithOperand
  | .jmp _ => .unconditionalJump
  | .jz _ => .conditionalJump
  | .jnz _ => .conditionalJump
  | .halt => .halt

/-- The ticks column of R143: what an instruction of the class costs when it completes. -/
def OpClass.ticks : OpClass → Nat
  | .halt => 0
  | .unconditionalJump => 1
  | .conditionalJump => 1
  | .noOperandArithmetic => 1
  | .immediateLoad => 1
  | .directMemory => 2
  | .indirectMemory => 3
  | .arithmeticWithOperand => 2

/-- The signal sequence of an instruction (R143); the jumps and `halt` issue no DataPath signal. -/
def signalSequence : Instr → List Signal
  | .inc => [.noArgOp .inc]
  | .dec => [.noArgOp .dec]
  | .mov literal => [.setAccumulator literal]
  | .load addr => [.latchAddress addr, .latchAccumulator]
  | .store addr => [.latchAddress addr, .write]
  | .ld addr => [.latchAddress addr, .addressByAddress, .latchAccumulator]
  | .st addr => [.latchAddress addr, .addressByAddress, .write]
  | .add addr => [.latchAddress addr, .argOp .add]
  | .sub addr => [.latchAddress addr, .argOp .sub]
  | .mul addr => [.latchAddress addr, .argOp .mul]
  | .div addr => [.latchAddress addr, .argOp .div]
  | .mod addr => [.latchAddress addr, .argOp .mod]
  | .jmp _ => []
  | .jz _ => []
  | .jnz _ => []
  | .halt => []

end Sys2Proof.Machine
end

