-- ==== Sys2Proof/Safety.lean ====
section
/-! DEFINITION. What the claims say of a run: the invariant of the reachable states (10_state.md R34), and the tick
cost of the instructions a run executes (41_control_cycle.md R147). -/

namespace Sys2Proof.Safety

open Sys2Proof.Machine

/-- The invariant of every reachable state, terminal ones included (10_state.md R34, R20, R23, R28, R29;
41_control_cycle.md R151; 20_memory.md R54). -/
structure Inv (s : State) : Prop where
  /-- reset did not refuse the parameters (R255) -/
  params : parameterRefusal s.par = none
  /-- "accumulator always within the 32-bit signed band" (R34 b) -/
  acc : InBand s.acc
  /-- "address register always valid" (R34 a) -/
  ar : s.ar < s.par.memSize
  /-- the memory is in canonical form and lists only addresses below `MEM_SIZE` -/
  memForm : Memory.wf s.par.memFill s.par.memSize s.mem
  /-- every cell is in `INT32` (R34 c) -/
  cells : ∀ a : Nat, InBand (readCell s a)
  /-- `IN` is what is left of `INPUT`, "consumed front-to-back and never replenished" (R28) -/
  inputLeft : s.inq <:+ s.par.input
  /-- every element of `OUT` is a character code (R29) -/
  outputCodes : ∀ c ∈ s.outq, 0 ≤ c ∧ c ≤ (s.par.charMax : Int)
  /-- `PC` is in `INT32` (R23) -/
  pc : InBand s.pc
  /-- `ICOUNT <= LIMIT` (R25) -/
  icount : s.icount ≤ s.par.limit
  /-- `TICK <= 3 · ICOUNT` (R151) -/
  tick : s.tick ≤ 3 * s.icount
  /-- the cell under the output port keeps its reset value (R54) -/
  portCell : readCell s 1 = readCell (resetState s.par) 1
  /-- `ArithmeticOverflow` ends a run only with `OVF_POLICY = fault` (R230) -/
  overflow : s.status = .faulted .arithmeticOverflow → s.par.ovfPolicy = .fault

/-- The instruction the next step executes, where there is one: the machine is running below the limit and the word at
`PC` is legal (41_control_cycle.md R140). -/
def nextInstr (s : State) : Option Instr :=
  if s.status = .running ∧ limitReached s = false then
    match fetchWord s with
    | some w =>
      match decode w with
      | .ok i => some i
      | .error _ => none
    | none => none
  else none

/-- The sum of the ticks column of R143 over the instructions that the first `k` steps from `s` execute. -/
def executedCost : Nat → State → Nat
  | 0, _ => 0
  | k + 1, s =>
    match nextInstr s, step s with
    | some i, .next t => (opClass i).ticks + executedCost k t
    | none, .next t => executedCost k t
    | _, _ => 0

/-- How many instructions the first `k` steps from `s` execute (41_control_cycle.md R141). -/
def executedCount : Nat → State → Nat
  | 0, _ => 0
  | k + 1, s =>
    match nextInstr s, step s with
    | some _, .next t => 1 + executedCount k t
    | none, .next t => executedCount k t
    | _, _ => 0

end Sys2Proof.Safety
end

