-- ==== Sys2Proof/Certificates/Slice0/Obligations.lean ====
section
/-! DEFINITION. The statements for the provers. -/

open Sys2Proof Sys2Proof.Machine Sys2Proof.Safety

/-! ### Encoding (30_encoding.md; the word form is the spec's own choice D3, log 10) -/

/-- R87, R88: decoding the word of a well-formed instruction gives the instruction back, for every argument. The word
form is the spec's decision D3 (log 10). -/
def Obligations.DecodeOfEncode : Prop :=
  ∀ i : Instr, i.wellFormed = true → decode (encode i) = .ok i

/-- R88: "Every legal word … corresponds to exactly one well-formed record": a word that decodes is the word of the
instruction it decodes to. The word form is the spec's decision D3 (log 10). -/
def Obligations.EncodeOfDecode : Prop :=
  ∀ (w : Word40) (i : Instr), decode w = .ok i → i.wellFormed = true ∧ encode i = w

/-- R94, R89, R90: the decoder rejects a word exactly when its opcode is outside the sixteen, or when it is a format-N
word with a non-zero argument, each by its own name; every other word is an instruction with the word's two fields. The
word form and the treatment of a stray argument are the spec's decisions D3 and D4 (log 10, log 21). -/
def Obligations.EveryWordIsLegalOrRejectedByName : Prop :=
  ∀ w : Word40,
    (16 ≤ opcField w → decode w = .error (.illegalOpcode (opcField w))) ∧
    (opcField w = 0x00 ∨ opcField w = 0x01 ∨ opcField w = 0x0F → argField w ≠ 0#32 →
      decode w = .error (.strayArgument (opcField w) (sext32 (argField w)))) ∧
    (opcField w < 16 → (opcField w = 0x00 ∨ opcField w = 0x01 ∨ opcField w = 0x0F → argField w = 0#32) →
      ∃ i, decode w = .ok i ∧ opcodeOf i = opcField w ∧ ∀ a ∈ argumentOf i, a = sext32 (argField w))

/-- 95_test_vectors.md E1 to E9: one word of every opcode class, written out, decodes to its instruction. The word form
is the spec's decision D3 (log 10). -/
def Obligations.WrittenOutWordsDecode : Prop :=
  decode 0x0200000005 = .ok (.mov 5) ∧ decode 0x02FFFFFFFF = .ok (.mov (-1)) ∧
  decode 0x0000000000 = .ok .inc ∧ decode 0x0F00000000 = .ok .halt ∧
  decode 0x040000000A = .ok (.store 10) ∧ decode 0x0500000002 = .ok (.ld 2) ∧
  decode 0x0B00000004 = .ok (.mod 4) ∧ decode 0x0CFFFFFFFF = .ok (.jmp (-1)) ∧ decode 0x0E00000000 = .ok (.jnz 0)

/-- R94 on records, with R82, R85, R90: a record is the instruction `i` exactly when its mnemonic is the one at place
`opcodeOf i` of R80's set and its argument is the one `i` takes, none where `i` takes none; every other record is
illegal. R88: a record and its word decode to the same instruction or both to none. R81: a record's index and diagnostic
term play no part in its decoding. The opcode numbers and the treatment of an argument that does not match are the
spec's decisions D3 and D4 (log 10, log 21); that an illegal record stands as an illegal word is the model's choice
(log 11). -/
def Obligations.RecordAndWordDecodeAlike : Prop :=
  ∀ r : Record,
    (∀ i, decodeRecord r = .ok i ↔
      ["inc", "dec", "mov", "load", "store", "ld", "st", "add", "sub", "mul", "div", "mod", "jmp", "jz", "jnz",
        "halt"][opcodeOf i]? = some r.opcode ∧ r.arg = argumentOf i) ∧
    ((∀ a ∈ r.arg, InBand a) → ∀ i, decode r.toWord = .ok i ↔ decodeRecord r = .ok i) ∧
    ∀ index term, decodeRecord { r with index := index, term := term } = decodeRecord r

/-- R81, R83: the loader accepts an artifact's records exactly when every index is its record's position and every
argument is in `INT32`, and then each record's word stands at its position. The refusals are the spec's decisions D2
and D23 (log 22). -/
def Obligations.LoaderAcceptsExactly : Prop :=
  ∀ records : List Record,
    ((∃ words, loadRecords 0 records = .ok words) ↔
      ∀ (n : Nat) (r : Record), records[n]? = some r → r.index = (n : Int) ∧ ∀ a ∈ r.arg, InBand a) ∧
    ∀ words, loadRecords 0 records = .ok words → words = records.map Record.toWord

/-! ### Reset (70_reset_and_hazards.md) -/

/-- R35: the state after reset. `ACC`, `AR` and the fill of memory are the spec's own choice D9 (log 3, log 4); the
parameters are the model's choice (log 2). -/
def Obligations.ResetStateIsR35 : Prop :=
  State.reset.pc = 0 ∧ State.reset.tick = 0 ∧ State.reset.icount = 0 ∧ State.reset.status = .running ∧
  State.reset.acc = 0 ∧ State.reset.ar = 0 ∧ State.reset.inq = State.reset.par.input ∧ State.reset.outq = [] ∧
  State.reset.mem = [] ∧ State.reset.par = Config.defaultParams ∧ boot Config.defaultParams = .ok State.reset

/-- R250 to R254, R35: what reset builds from any parameter set it accepts. The reset values of `ACC`, `AR` and the
cells beyond the image are the parameters of the spec's decision D9 (log 3, log 4). -/
def Obligations.BootBuildsTheFirstState : Prop :=
  ∀ (p : Params) (s : State), boot p = .ok s →
    s.par = p ∧ s.pc = 0 ∧ s.tick = 0 ∧ s.icount = 0 ∧ s.status = .running ∧
    s.acc = p.accReset ∧ s.ar = p.arReset ∧ s.inq = p.input ∧ s.outq = [] ∧
    (∀ (a : Nat) (v : Int), p.dataImage[a]? = some v → readCell s a = v) ∧
    ∀ a : Nat, p.dataImage.length ≤ a → readCell s a = p.memFill

/-- R255: reset accepts a parameter set exactly when its conditions hold. That the sizes, the image's values and the
tokens are bounded, and refused outside their bounds, is the spec's decisions D2, D8 and D17 (log 22). The last four
clauses are the constraints of R7 and R35 on the parameters the spec adds, which the model refuses too (log 15). -/
def Obligations.BootAcceptsExactly : Prop :=
  ∀ p : Params, (∃ s, boot p = .ok s) ↔
    (0 < p.memSize ∧ 0 < p.limit ∧ p.memSize ≤ 2147483648 ∧ p.prog.length ≤ 2147483647 ∧
      p.dataImage.length ≤ p.memSize ∧ (∀ v ∈ p.dataImage, InBand v) ∧
      (∀ c ∈ p.input, 0 ≤ c ∧ c ≤ (p.charMax : Int)) ∧
      p.charMax ≤ 2147483647 ∧ InBand p.accReset ∧ p.arReset < p.memSize ∧ InBand p.memFill)

/-! ### The invariant (10_state.md R34) -/

/-- R34: the invariant holds right after reset. -/
def Obligations.ResetMeetsTheInvariant : Prop := Inv State.reset

/-- R34: the invariant holds in the first state of every run, whatever its parameters. -/
def Obligations.BootMeetsTheInvariant : Prop :=
  ∀ (p : Params) (s : State), boot p = .ok s → Inv s

/-- R34 (a), (b), (c), with R20, R23, R25, R28, R29, R54, R151: every step from a state that meets the invariant gives
one that meets it. -/
def Obligations.StepKeepsTheInvariant : Prop :=
  ∀ s t : State, Inv s → step s = .next t → Inv t

/-! ### The step (41_control_cycle.md) -/

/-- R140: a running machine below its limit whose word at `PC` is legal counts the instruction and executes it. That the
count comes before the instruction is the spec's decision D13 (log 13). -/
def Obligations.StepRunsTheDecodedInstruction : Prop :=
  ∀ (s : State) (w : Word40) (i : Instr),
    s.status = .running → s.icount < s.par.limit → 0 ≤ s.pc → s.par.prog[s.pc.toNat]? = some w →
    decode w = .ok i →
    step s = exec i { s with icount := s.icount + 1 }

/-- R140, R142, R148, R232: the checks before an instruction, in their order, each with exactly the change of `STATUS`.
The order and the fetch fault are the spec's decisions D11, D13, D14 and D24 (log 13, log 14, log 20). -/
def Obligations.ChecksBeforeTheInstruction : Prop :=
  ∀ s : State, s.status = .running →
    (s.par.limit ≤ s.icount → step s = .next { s with status := .limitExceeded }) ∧
    (s.icount < s.par.limit → s.pc < 0 ∨ (s.par.prog.length : Int) ≤ s.pc →
      step s = .next { s with status := .faulted (.fetchRange s.pc) }) ∧
    ∀ (w : Word40) (r : DecodeReject), s.icount < s.par.limit → 0 ≤ s.pc → s.par.prog[s.pc.toNat]? = some w →
      decode w = .error r → step s = .next { s with status := .faulted (.illegalInstruction s.pc) }

/-- R140, R149, R234: a running machine always has a next state, and a state in any other status has none. That a
terminal state answers the fault `noSuccessor` is the model's form of "has no step" (log 8). -/
def Obligations.OnlyRunningStatesHaveAStep : Prop :=
  ∀ s : State,
    (s.status = .running → ∃ t, step s = .next t) ∧ (s.status ≠ .running → step s = .fault .noSuccessor)

/-- R64: no step changes the program, so no store reaches an instruction; the run's other parameters stay as well
(R36). -/
def Obligations.NoStepChangesTheProgram : Prop :=
  ∀ s t : State, step s = .next t → t.par.prog = s.par.prog ∧ t.par = s.par

/-- R34 (e), (f), (g): `OUT` grows at its end by at most one character a step, `IN` shrinks from its front by at most
one token, and the counters never decrease; `ICOUNT` grows by at most one and `TICK` by at most three (R151). -/
def Obligations.QueuesAndCountersMoveOneWay : Prop :=
  ∀ s t : State, step s = .next t →
    (∃ out, out.length ≤ 1 ∧ t.outq = s.outq ++ out) ∧
    (∃ popped, popped.length ≤ 1 ∧ s.inq = popped ++ t.inq) ∧
    s.tick ≤ t.tick ∧ t.tick ≤ s.tick + 3 ∧ s.icount ≤ t.icount ∧ t.icount ≤ s.icount + 1

/-- R150: from a running state within its limit, the run reaches a terminal status after at most
`LIMIT - ICOUNT + 1` steps, whatever the program. -/
def Obligations.EveryRunEnds : Prop :=
  ∀ s : State, s.status = .running → s.icount ≤ s.par.limit →
    ∃ (k : Nat) (t : State), k ≤ s.par.limit - s.icount + 1 ∧ core.run k s = .next t ∧ t.status ≠ .running

/-- R147: in a run that ends `Halted`, `TICK` has grown by the sum of the table's costs over the executed instructions,
and `ICOUNT` by their number, the `halt` included (R141; that `halt` counts is in the source, the rest of the count is
the spec's decision D13, log 13). -/
def Obligations.TicksOfAHaltedRun : Prop :=
  ∀ (k : Nat) (s t : State), s.status = .running → core.run k s = .next t → t.status = .halted →
    t.tick = s.tick + executedCost k s ∧ t.icount = s.icount + executedCount k s

/-- R143: the dispatch table. An instruction of a signal class issues exactly the signals of its row, in order; `halt`
and the jumps do what their rows say; and an instruction that completes has added its row's ticks and, outside the
jumps, has moved `PC` to `PC + 1`. -/
def Obligations.DispatchFollowsTheClassTable : Prop :=
  ∀ (i : Instr) (s : State), s.status = .running →
    (opClass i = .halt → exec i s = .next { s with status := .halted }) ∧
    (∀ a, i = .jmp a → exec i s = .next { s with pc := a, tick := s.tick + 1 }) ∧
    (∀ a, i = .jz a → exec i s = .next { s with pc := if zero s then a else s.pc + 1, tick := s.tick + 1 }) ∧
    (∀ a, i = .jnz a → exec i s = .next { s with pc := if zero s then s.pc + 1 else a, tick := s.tick + 1 }) ∧
    (opClass i ≠ .halt ∧ opClass i ≠ .unconditionalJump ∧ opClass i ≠ .conditionalJump →
      exec i s = .next (runSignals (signalSequence i) s) ∧
      ∀ t, exec i s = .next t → t.status = .running → t.tick = s.tick + (opClass i).ticks ∧ t.pc = s.pc + 1)

/-- R231, R233, R123: an instruction that stops the run leaves `ACC`, `MEM`, `IN`, `OUT`, `PC` and `ICOUNT` as they
were, counts fewer ticks than when it completes (unless it is `halt`), and changes `AR` only where a first signal had
completed. The accounting of a failing signal is the spec's decision D12 (log 12). -/
def Obligations.ConditionsArePrecise : Prop :=
  ∀ (i : Instr) (s t : State), s.status = .running → exec i s = .next t → t.status ≠ .running →
    t.acc = s.acc ∧ t.mem = s.mem ∧ t.inq = s.inq ∧ t.outq = s.outq ∧ t.pc = s.pc ∧ t.icount = s.icount ∧
    t.par = s.par ∧ s.tick ≤ t.tick ∧ (i ≠ .halt → t.tick < s.tick + (opClass i).ticks) ∧
    (t.tick = s.tick → t.ar = s.ar)

/-- R238: "`TICK` influences nothing": a step from a state with a larger `TICK` does the same, with `TICK` larger by as
much. -/
def Obligations.TickInfluencesNothing : Prop :=
  ∀ (s t : State) (n : Nat), step s = .next t →
    step { s with tick := s.tick + n } = .next { t with tick := t.tick + n }

/-- R22: "the value `AR` holds at the start of an instruction never affects the instruction's result": with another
start value the next state is the same, or differs in `AR` alone because the instruction latched no address. -/
def Obligations.AddressRegisterIsNeverObserved : Prop :=
  ∀ (i : Instr) (s : State) (a : Nat), ∃ t, exec i s = .next t ∧
    (exec i { s with ar := a } = .next t ∨ (t.ar = s.ar ∧ exec i { s with ar := a } = .next { t with ar := a }))

/-- R29: "No instruction reads it": what stood in `OUT` before changes no step. -/
def Obligations.OutputIsNeverRead : Prop :=
  ∀ (s t : State) (earlier : List Int), step s = .next t →
    step { s with outq := earlier ++ s.outq } = .next { t with outq := earlier ++ t.outq }

/-! ### The ALU (40_datapath_signals.md section 5) -/

/-- R118: the correction step. In the one-step interval it is the source's single wrap, whatever the policy, and it is
`wrap32`; outside, the policy decides. It is applied by the two ALU signals and not by `latch_accumulator` or
`set_accumulator`. -/
def Obligations.CorrectionStep : Prop :=
  (∀ (policy : OvfPolicy) (raw : Int),
    (OneStep raw → corr policy raw = .ok (corr1 raw) ∧ corr1 raw = wrap32 raw ∧
      (2147483647 < raw → corr1 raw = raw - 4294967296) ∧ (raw < -2147483648 → corr1 raw = raw + 4294967296) ∧
      (InBand raw → corr1 raw = raw)) ∧
    (¬ OneStep raw →
      corr .wrap raw = .ok (wrap32 raw) ∧
      corr .saturate raw = .ok (if 0 < raw then 2147483647 else -2147483648) ∧
      corr .fault raw = .error (.fault .arithmeticOverflow))) ∧
  (∀ (s : State) (op : NoArgOp) (v : Int), corr s.par.ovfPolicy (noArgRaw op s.acc) = .ok v →
    runSignal (.noArgOp op) s = .ok { s with acc := v }) ∧
  (∀ (s : State) (op : ArgOp) (raw v : Int), argRaw op s.acc (readCell s s.ar) = .ok raw →
    corr s.par.ovfPolicy raw = .ok v → runSignal (.argOp op) s = .ok { s with acc := v }) ∧
  (∀ (s : State) (v : Int), runSignal (.setAccumulator v) s = .ok { s with acc := v }) ∧
  ∀ s : State, s.ar ≠ 0 → runSignal .latchAccumulator s = .ok { s with acc := readCell s s.ar }

/-- 00_scope.md section 6.1: `wrap32(v)` is the one integer of `INT32` congruent to `v` modulo 2^32. -/
def Obligations.WrapIsTheBandRepresentative : Prop :=
  ∀ v : Int, InBand (wrap32 v) ∧ (∃ k : Int, wrap32 v = v + k * 4294967296) ∧
    ∀ u k : Int, InBand u → u = v + k * 4294967296 → u = wrap32 v

/-- R119: one correction step lands in the band exactly in the one-step interval. With both operands in the band, the
raw results of `inc`, `dec`, `add`, `sub`, `div` and `mod` lie in the ranges of R119, all inside that interval, so no
two settings of `OVF_POLICY` give different results; a quotient leaves the band only as -2^31 by -1, a remainder never.
The product lies in [-2^62 + 2^31, 2^62], reaches both ends, and leaves the interval at 65536 by 98304, where the three
settings differ. What they give there is the spec's decision D5 (log 6). -/
def Obligations.OnlyMulLeavesTheOneStepInterval : Prop :=
  (∀ raw : Int, OneStep raw ↔ InBand (corr1 raw)) ∧
  (∀ a b : Int, InBand a → InBand b →
    (∀ op : NoArgOp, -2147483649 ≤ noArgRaw op a ∧ noArgRaw op a ≤ 2147483648 ∧
      ∀ p q : OvfPolicy, corr p (noArgRaw op a) = corr q (noArgRaw op a)) ∧
    (∃ raw, argRaw .add a b = .ok raw ∧ -4294967296 ≤ raw ∧ raw ≤ 4294967294) ∧
    (∃ raw, argRaw .sub a b = .ok raw ∧ -4294967295 ≤ raw ∧ raw ≤ 4294967295) ∧
    (∃ raw, argRaw .mul a b = .ok raw ∧ -4611686016279904256 ≤ raw ∧ raw ≤ 4611686018427387904) ∧
    (b ≠ 0 → ∃ q r, argRaw .div a b = .ok q ∧ argRaw .mod a b = .ok r ∧ a = b * q + r ∧
      (0 ≤ r ∧ r < b ∨ b < r ∧ r ≤ 0) ∧ InBand r ∧ -2147483648 ≤ q ∧ q ≤ 2147483648 ∧
      (q = 2147483648 ↔ a = -2147483648 ∧ b = -1)) ∧
    (∀ (op : ArgOp) (raw : Int), op ≠ .mul → argRaw op a b = .ok raw → OneStep raw) ∧
    ∀ (op : ArgOp) (p q : OvfPolicy), op ≠ .mul → argResult p op a b = argResult q op a b) ∧
  argRaw .mul (-2147483648) 2147483647 = .ok (-4611686016279904256) ∧
  argRaw .mul (-2147483648) (-2147483648) = .ok 4611686018427387904 ∧
  argRaw .mul 65536 98304 = .ok 6442450944 ∧ ¬ OneStep 6442450944 ∧
  argResult .wrap .mul 65536 98304 = .ok (-2147483648) ∧
  argResult .saturate .mul 65536 98304 = .ok 2147483647 ∧
  argResult .fault .mul 65536 98304 = .error (.fault .arithmeticOverflow)

/-! ### The signals (40_datapath_signals.md sections 2 to 4) -/

/-- R110: `latch_address` sets `AR` to an argument in [0, MEM_SIZE) and changes nothing else; any other argument raises
`AddressRange` with nothing changed, before any port behaviour, in every instruction that begins with it. That the
instruction stops with no tick counted and `PC` kept is the spec's decision D12 (log 12). -/
def Obligations.LatchAddressChecksTheRange : Prop :=
  ∀ (s : State) (addr : Int),
    (0 ≤ addr ∧ addr < (s.par.memSize : Int) →
      runSignal (.latchAddress addr) s = .ok { s with ar := addr.toNat }) ∧
    (¬ (0 ≤ addr ∧ addr < (s.par.memSize : Int)) →
      runSignal (.latchAddress addr) s = .error (.fault (.addressRange addr)) ∧
      ∀ (i : Instr) (rest : List Signal), signalSequence i = .latchAddress addr :: rest →
        exec i s = .next { s with status := .faulted (.addressRange addr) })

/-- R111: `latch_accumulator` at address 0 takes the front token, or raises `InputExhausted` with nothing changed; at
any other address it copies the cell. -/
def Obligations.LatchAccumulatorReadsPortOrCell : Prop :=
  ∀ s : State,
    (∀ (c : Int) (rest : List Int), s.ar = 0 → s.inq = c :: rest →
      runSignal .latchAccumulator s = .ok { s with acc := c, inq := rest }) ∧
    (s.ar = 0 → s.inq = [] → runSignal .latchAccumulator s = .error .inputExhausted) ∧
    (s.ar ≠ 0 → runSignal .latchAccumulator s = .ok { s with acc := readCell s s.ar })

/-- R53: the four signals at the port addresses, and the consequence "the input port is visible only to `load` and
`ld`; the output port only to `store` and `st`". The raw accesses hold for every `AR`, 0 and 1 among them. -/
def Obligations.PortsAreSeenByTwoSignalsOnly : Prop :=
  ∀ s : State,
    (∀ (c : Int) (rest : List Int), s.ar = 0 → s.inq = c :: rest →
      runSignal .latchAccumulator s = .ok { s with acc := c, inq := rest }) ∧
    (s.ar ≠ 0 → runSignal .latchAccumulator s = .ok { s with acc := readCell s s.ar }) ∧
    (s.ar = 1 → 0 ≤ s.acc → s.acc ≤ (s.par.charMax : Int) →
      runSignal .write s = .ok { s with outq := s.outq ++ [s.acc] }) ∧
    (s.ar ≠ 1 → runSignal .write s = .ok (writeCell s.ar s.acc s)) ∧
    (∀ (op : ArgOp) (v : Int), argResult s.par.ovfPolicy op s.acc (readCell s s.ar) = .ok v →
      runSignal (.argOp op) s = .ok { s with acc := v }) ∧
    (0 ≤ readCell s s.ar → readCell s s.ar < (s.par.memSize : Int) →
      runSignal .addressByAddress s = .ok { s with ar := (readCell s s.ar).toNat }) ∧
    ∀ (i : Instr) (t : State), exec i s = .next t →
      (t.inq ≠ s.inq → ∃ a, i = .load a ∨ i = .ld a) ∧
      (t.outq ≠ s.outq → ∃ a, i = .store a ∨ i = .st a)

/-- R54: "`MEM[1]` is never written by any instruction after reset". -/
def Obligations.PortCellOneIsNeverWritten : Prop :=
  ∀ (i : Instr) (s t : State), exec i s = .next t → readCell t 1 = readCell s 1

/-- R230: with the accumulator and the cells in the band, `ArithmeticOverflow` is raised by `mul` alone and only with
`OVF_POLICY = fault` (the spec's decision D5, log 6). -/
def Obligations.OverflowIsMulUnderFaultPolicy : Prop :=
  ∀ (i : Instr) (s t : State), s.status = .running → InBand s.acc → (∀ a : Nat, InBand (readCell s a)) →
    exec i s = .next t → t.status = .faulted .arithmeticOverflow →
    s.par.ovfPolicy = .fault ∧ ∃ a : Int, i = .mul a ∧ ¬ OneStep (s.acc * readCell s a.toNat)

/-! ### The instructions' results -/

/-- R113: `inc` and `dec` complete with the corrected result, which no policy changes, and touch nothing else but `PC`
and `TICK`; at the ends of the band they wrap. -/
def Obligations.IncDecResults : Prop :=
  ∀ s : State, InBand s.acc →
    exec .inc s = .next { s with acc := wrap32 (s.acc + 1), tick := s.tick + 1, pc := s.pc + 1 } ∧
    exec .dec s = .next { s with acc := wrap32 (s.acc - 1), tick := s.tick + 1, pc := s.pc + 1 } ∧
    corr s.par.ovfPolicy (s.acc + 1) = .ok (corr1 (s.acc + 1)) ∧ corr1 (s.acc + 1) = wrap32 (s.acc + 1) ∧
    corr s.par.ovfPolicy (s.acc - 1) = .ok (corr1 (s.acc - 1)) ∧ corr1 (s.acc - 1) = wrap32 (s.acc - 1) ∧
    (s.acc = 2147483647 → wrap32 (s.acc + 1) = -2147483648) ∧
    (s.acc ≠ 2147483647 → wrap32 (s.acc + 1) = s.acc + 1) ∧
    (s.acc = -2147483648 → wrap32 (s.acc - 1) = 2147483647) ∧
    (s.acc ≠ -2147483648 → wrap32 (s.acc - 1) = s.acc - 1)

/-- R116: `mov` completes with its literal in `ACC`, uncorrected, from every state. -/
def Obligations.MovResult : Prop :=
  ∀ (s : State) (literal : Int),
    exec (.mov literal) s = .next { s with acc := literal, tick := s.tick + 1, pc := s.pc + 1 }

/-- 44_memory_access.md, `load`: every form of it completes or stops as said. The state where it stops is the spec's
decision D12 (log 12). -/
def Obligations.LoadResults : Prop :=
  ∀ (s : State) (arg : Int),
    (¬ (0 ≤ arg ∧ arg < (s.par.memSize : Int)) →
      exec (.load arg) s = .next { s with status := .faulted (.addressRange arg) }) ∧
    (0 < arg → arg < (s.par.memSize : Int) →
      exec (.load arg) s = .next
        { s with ar := arg.toNat, acc := readCell s arg.toNat, tick := s.tick + 2, pc := s.pc + 1 }) ∧
    (∀ (c : Int) (rest : List Int), arg = 0 → 0 < s.par.memSize → s.inq = c :: rest →
      exec (.load arg) s = .next { s with ar := 0, acc := c, inq := rest, tick := s.tick + 2, pc := s.pc + 1 }) ∧
    (arg = 0 → 0 < s.par.memSize → s.inq = [] →
      exec (.load arg) s = .next { s with ar := 0, tick := s.tick + 1, status := .inputExhausted })

/-- 44_memory_access.md, `store`: every form of it completes or stops as said; after a store to a cell, that cell alone
has changed, in a memory still in canonical form. The range of output characters and the state where it stops are the
spec's decisions D7 and D12 (log 18, log 12). -/
def Obligations.StoreResults : Prop :=
  ∀ (s : State) (arg : Int),
    (¬ (0 ≤ arg ∧ arg < (s.par.memSize : Int)) →
      exec (.store arg) s = .next { s with status := .faulted (.addressRange arg) }) ∧
    (0 ≤ arg → arg < (s.par.memSize : Int) → arg ≠ 1 → Memory.wf s.par.memFill s.par.memSize s.mem →
      ∃ m, exec (.store arg) s = .next
          { s with ar := arg.toNat, mem := m, tick := s.tick + 2, pc := s.pc + 1 } ∧
        Memory.wf s.par.memFill s.par.memSize m ∧
        ∀ b, Memory.read s.par.memFill m b = if b = arg.toNat then s.acc else readCell s b) ∧
    (arg = 1 → 1 < s.par.memSize → 0 ≤ s.acc → s.acc ≤ (s.par.charMax : Int) →
      exec (.store arg) s = .next
        { s with ar := 1, outq := s.outq ++ [s.acc], tick := s.tick + 2, pc := s.pc + 1 }) ∧
    (arg = 1 → 1 < s.par.memSize → s.acc < 0 ∨ (s.par.charMax : Int) < s.acc →
      exec (.store arg) s = .next
        { s with ar := 1, tick := s.tick + 1, status := .faulted (.outputRange s.acc) })

/-- 44_memory_access.md, `ld`: every form of it completes or stops as said. The check of the pointer and the state
where it stops are the spec's decisions D10 and D12 (log 19, log 12). -/
def Obligations.LdResults : Prop :=
  ∀ (s : State) (arg : Int),
    (¬ (0 ≤ arg ∧ arg < (s.par.memSize : Int)) →
      exec (.ld arg) s = .next { s with status := .faulted (.addressRange arg) }) ∧
    ∀ p : Int, 0 ≤ arg → arg < (s.par.memSize : Int) → readCell s arg.toNat = p →
      (¬ (0 ≤ p ∧ p < (s.par.memSize : Int)) →
        exec (.ld arg) s = .next
          { s with ar := arg.toNat, tick := s.tick + 1, status := .faulted (.addressRange p) }) ∧
      (0 < p → p < (s.par.memSize : Int) →
        exec (.ld arg) s = .next
          { s with ar := p.toNat, acc := readCell s p.toNat, tick := s.tick + 3, pc := s.pc + 1 }) ∧
      (∀ (c : Int) (rest : List Int), p = 0 → s.inq = c :: rest →
        exec (.ld arg) s = .next { s with ar := 0, acc := c, inq := rest, tick := s.tick + 3, pc := s.pc + 1 }) ∧
      (p = 0 → s.inq = [] →
        exec (.ld arg) s = .next { s with ar := 0, tick := s.tick + 2, status := .inputExhausted })

/-- 44_memory_access.md, `st`: every form of it completes or stops as said; after a store to a cell, that cell alone has
changed, the pointer cell too if it points at itself. The check of the pointer, the range of output characters and the
state where it stops are the spec's decisions D10, D7 and D12 (log 19, log 18, log 12). -/
def Obligations.StResults : Prop :=
  ∀ (s : State) (arg : Int),
    (¬ (0 ≤ arg ∧ arg < (s.par.memSize : Int)) →
      exec (.st arg) s = .next { s with status := .faulted (.addressRange arg) }) ∧
    ∀ p : Int, 0 ≤ arg → arg < (s.par.memSize : Int) → readCell s arg.toNat = p →
      (¬ (0 ≤ p ∧ p < (s.par.memSize : Int)) →
        exec (.st arg) s = .next
          { s with ar := arg.toNat, tick := s.tick + 1, status := .faulted (.addressRange p) }) ∧
      (0 ≤ p → p < (s.par.memSize : Int) → p ≠ 1 → Memory.wf s.par.memFill s.par.memSize s.mem →
        ∃ m, exec (.st arg) s = .next { s with ar := p.toNat, mem := m, tick := s.tick + 3, pc := s.pc + 1 } ∧
          Memory.wf s.par.memFill s.par.memSize m ∧
          ∀ b, Memory.read s.par.memFill m b = if b = p.toNat then s.acc else readCell s b) ∧
      (p = 1 → 1 < s.par.memSize → 0 ≤ s.acc → s.acc ≤ (s.par.charMax : Int) →
        exec (.st arg) s = .next
          { s with ar := 1, outq := s.outq ++ [s.acc], tick := s.tick + 3, pc := s.pc + 1 }) ∧
      (p = 1 → 1 < s.par.memSize → s.acc < 0 ∨ (s.par.charMax : Int) < s.acc →
        exec (.st arg) s = .next
          { s with ar := 1, tick := s.tick + 2, status := .faulted (.outputRange s.acc) })

/-- 45_arithmetic.md, `add` and `sub`: with a valid address and operands in the band, both complete with the wrapped
result, whatever the policy; the second operand is the raw cell, at the port addresses too. An argument that is no data
address faults. That it stops with no tick counted and `PC` kept is the spec's decision D12 (log 12). -/
def Obligations.AddSubResults : Prop :=
  ∀ (s : State) (arg : Int),
    (0 ≤ arg → arg < (s.par.memSize : Int) → InBand s.acc → InBand (readCell s arg.toNat) →
      exec (.add arg) s = .next { s with
        ar := arg.toNat, acc := wrap32 (s.acc + readCell s arg.toNat), tick := s.tick + 2, pc := s.pc + 1 } ∧
      exec (.sub arg) s = .next { s with
        ar := arg.toNat, acc := wrap32 (s.acc - readCell s arg.toNat), tick := s.tick + 2, pc := s.pc + 1 }) ∧
    (¬ (0 ≤ arg ∧ arg < (s.par.memSize : Int)) →
      exec (.add arg) s = .next { s with status := .faulted (.addressRange arg) } ∧
      exec (.sub arg) s = .next { s with status := .faulted (.addressRange arg) })

/-- 45_arithmetic.md, `mul`, under each setting of `OVF_POLICY`: in the one-step interval the wrapped product; outside,
the wrapped product, the end of the band, or the fault with `ACC` and `PC` kept. The policies beyond one band are the
spec's decision D5 (log 6), the state of the fault its decision D12 (log 12). -/
def Obligations.MulResults : Prop :=
  ∀ (s : State) (arg : Int),
    (¬ (0 ≤ arg ∧ arg < (s.par.memSize : Int)) →
      exec (.mul arg) s = .next { s with status := .faulted (.addressRange arg) }) ∧
    ∀ product : Int, 0 ≤ arg → arg < (s.par.memSize : Int) → product = s.acc * readCell s arg.toNat →
      (OneStep product ∨ s.par.ovfPolicy = .wrap →
        exec (.mul arg) s = .next { s with
          ar := arg.toNat, acc := wrap32 product, tick := s.tick + 2, pc := s.pc + 1 }) ∧
      (¬ OneStep product → s.par.ovfPolicy = .saturate →
        exec (.mul arg) s = .next { s with
          ar := arg.toNat, acc := if 0 < product then 2147483647 else -2147483648,
          tick := s.tick + 2, pc := s.pc + 1 }) ∧
      (¬ OneStep product → s.par.ovfPolicy = .fault →
        exec (.mul arg) s = .next { s with
          ar := arg.toNat, tick := s.tick + 1, status := .faulted .arithmeticOverflow })

/-- R121: `div` and `mod` by a cell that is not zero complete with the quotient rounded toward negative infinity and
the remainder that is zero or has the divisor's sign; only -2^31 by -1 leaves the band, and wraps. -/
def Obligations.DivModResults : Prop :=
  ∀ (s : State) (arg m : Int), 0 ≤ arg → arg < (s.par.memSize : Int) → readCell s arg.toNat = m → m ≠ 0 →
    InBand s.acc → InBand m →
    ∃ q r : Int, s.acc = m * q + r ∧ (0 ≤ r ∧ r < m ∨ m < r ∧ r ≤ 0) ∧
      (s.acc = -2147483648 ∧ m = -1 ∧ q = 2147483648 ∧ wrap32 q = -2147483648 ∨ InBand q ∧ wrap32 q = q) ∧
      exec (.div arg) s = .next { s with
        ar := arg.toNat, acc := wrap32 q, tick := s.tick + 2, pc := s.pc + 1 } ∧
      exec (.mod arg) s = .next { s with ar := arg.toNat, acc := r, tick := s.tick + 2, pc := s.pc + 1 }

/-- 45_arithmetic.md, `div` and `mod`: a zero divisor raises `DivideByZero` after the address is latched, and the
address check comes first (R232). The fault and its state are the spec's decisions D6, D12 and D24 (log 17, log 12,
log 14). -/
def Obligations.DivModFaults : Prop :=
  ∀ (s : State) (arg : Int),
    (0 ≤ arg → arg < (s.par.memSize : Int) → readCell s arg.toNat = 0 →
      exec (.div arg) s = .next { s with ar := arg.toNat, tick := s.tick + 1, status := .faulted .divideByZero } ∧
      exec (.mod arg) s = .next { s with ar := arg.toNat, tick := s.tick + 1, status := .faulted .divideByZero }) ∧
    (¬ (0 ≤ arg ∧ arg < (s.par.memSize : Int)) →
      exec (.div arg) s = .next { s with status := .faulted (.addressRange arg) } ∧
      exec (.mod arg) s = .next { s with status := .faulted (.addressRange arg) })

/-- R206: in every arithmetic instruction the accumulator is the left operand and the cell the right one; the result
replaces the accumulator and the memory is unchanged. -/
def Obligations.OperandOrder : Prop :=
  ∀ (s t : State) (arg m : Int), s.status = .running → t.status = .running → readCell s arg.toNat = m →
    (exec (.add arg) s = .next t → corr s.par.ovfPolicy (s.acc + m) = .ok t.acc ∧ t.mem = s.mem) ∧
    (exec (.sub arg) s = .next t → corr s.par.ovfPolicy (s.acc - m) = .ok t.acc ∧ t.mem = s.mem) ∧
    (exec (.mul arg) s = .next t → corr s.par.ovfPolicy (s.acc * m) = .ok t.acc ∧ t.mem = s.mem) ∧
    (exec (.div arg) s = .next t → corr s.par.ovfPolicy (floorDiv s.acc m) = .ok t.acc ∧ t.mem = s.mem) ∧
    (exec (.mod arg) s = .next t → corr s.par.ovfPolicy (floorMod s.acc m) = .ok t.acc ∧ t.mem = s.mem)

/-- R117: the zero query is true exactly when `ACC = 0`, at the moment it is asked; `jz` and `jnz` go opposite ways on
it, change nothing but `PC` and `TICK`, and cost one tick in all, taken or not. -/
def Obligations.ConditionalJumpResults : Prop :=
  ∀ (s : State) (target : Int),
    (zero s = true ↔ s.acc = 0) ∧
    exec (.jz target) s = .next
      { s with pc := if s.acc = 0 then target else s.pc + 1, tick := s.tick + 1 } ∧
    exec (.jnz target) s = .next
      { s with pc := if s.acc = 0 then s.pc + 1 else target, tick := s.tick + 1 }

/-- R145: the `PC` update. `halt` leaves it; `jmp`, a `jz` with `ACC = 0` and a `jnz` with `ACC ≠ 0` write the argument,
unchecked; a `jz` with `ACC ≠ 0`, a `jnz` with `ACC = 0` and every other instruction that completes write `PC + 1`.
R142: whichever instruction left `PC` outside the program, by a jump or past the last instruction, the next step faults
with that `PC` and changes nothing else: that fault is the spec's decision D11 (log 20), and that the limit is checked
before it the decisions D14 and D24 (log 14). -/
def Obligations.ProgramCounterUpdate : Prop :=
  (∀ s : State, exec .halt s = .next { s with status := .halted }) ∧
  (∀ (i : Instr) (s : State) (target : Int),
    i = .jmp target ∨ (i = .jz target ∧ s.acc = 0) ∨ (i = .jnz target ∧ s.acc ≠ 0) →
    exec i s = .next { s with pc := target, tick := s.tick + 1 } ∧
    (s.status = .running → s.icount < s.par.limit → target < 0 ∨ (s.par.prog.length : Int) ≤ target →
      step { s with pc := target, tick := s.tick + 1 } = .next
        { s with pc := target, tick := s.tick + 1, status := .faulted (.fetchRange target) })) ∧
  (∀ (i : Instr) (s : State) (target : Int),
    (i = .jz target ∧ s.acc ≠ 0) ∨ (i = .jnz target ∧ s.acc = 0) →
    exec i s = .next { s with pc := s.pc + 1, tick := s.tick + 1 }) ∧
  (∀ (i : Instr) (s t : State), s.status = .running →
    (∀ target, i ≠ .jmp target ∧ i ≠ .jz target ∧ i ≠ .jnz target) →
    exec i s = .next t → t.status = .running → t.pc = s.pc + 1) ∧
  ∀ (i : Instr) (s t : State), s.icount < s.par.limit → exec i s = .next t → t.status = .running →
    t.pc < 0 ∨ (s.par.prog.length : Int) ≤ t.pc → step t = .next { t with status := .faulted (.fetchRange t.pc) }

/-- R222: a `halt` that the machine reaches leaves everything as it was before it, except `ICOUNT` + 1 and
`STATUS = Halted`. -/
def Obligations.HaltStep : Prop :=
  ∀ s : State, s.status = .running → s.icount < s.par.limit → 0 ≤ s.pc →
    s.par.prog[s.pc.toNat]? = some (encode .halt) →
    step s = .next { s with icount := s.icount + 1, status := .halted }

/-! ### Frames -/

/-- R37: what `inc`, `dec`, `mov`, `jmp`, `jz`, `jnz` and `halt` leave alone. -/
def Obligations.RegisterOnlyFrame : Prop :=
  ∀ (i : Instr) (s t : State), signalSequence i = [] ∨ i = .inc ∨ i = .dec ∨ (∃ v, i = .mov v) →
    exec i s = .next t →
    t.par = s.par ∧ t.ar = s.ar ∧ t.inq = s.inq ∧ t.outq = s.outq ∧ t.icount = s.icount ∧ t.mem = s.mem ∧
    (∀ a : Nat, readCell t a = readCell s a) ∧
    (signalSequence i = [] → t.acc = s.acc) ∧
    (opClass i = .unconditionalJump ∨ opClass i = .conditionalJump → t.status = s.status)

/-- R37: what `load` and `ld` leave alone. `ACC`, `AR`, `PC` and `TICK` may change; a token is taken only where the
effective address is 0. -/
def Obligations.LoadingFrame : Prop :=
  ∀ (arg : Int) (s t : State),
    (exec (.load arg) s = .next t →
      t.par = s.par ∧ t.outq = s.outq ∧ t.icount = s.icount ∧ (∀ a : Nat, readCell t a = readCell s a) ∧
      (directAddress s arg ≠ some 0 → t.inq = s.inq)) ∧
    (exec (.ld arg) s = .next t →
      t.par = s.par ∧ t.outq = s.outq ∧ t.icount = s.icount ∧ (∀ a : Nat, readCell t a = readCell s a) ∧
      (indirectAddress s arg ≠ some 0 → t.inq = s.inq))

/-- R37: what `store` and `st` leave alone. The address stored to is the effective address `EA`, computed as the
meaning computes it; only the cell `EA` changes, and none where `EA = 1` (the output port) or where there is no
address; `OUT` changes only where `EA = 1`. -/
def Obligations.StoringFrame : Prop :=
  ∀ (arg : Int) (s t : State) (i : Instr) (ea : Option Nat),
    (i = .store arg ∧ ea = directAddress s arg) ∨ (i = .st arg ∧ ea = indirectAddress s arg) →
    exec i s = .next t →
    t.par = s.par ∧ t.acc = s.acc ∧ t.inq = s.inq ∧ t.icount = s.icount ∧
    (∀ a : Nat, ea = some a → ∀ b : Nat, b ≠ a → readCell t b = readCell s b) ∧
    (ea = none ∨ ea = some 1 → ∀ b : Nat, readCell t b = readCell s b) ∧
    (ea ≠ some 1 → t.outq = s.outq)

/-- R37: what `add`, `sub`, `mul`, `div` and `mod` leave alone. `ACC`, `AR`, `PC` and `TICK` may change. -/
def Obligations.ArithmeticFrame : Prop :=
  ∀ (i : Instr) (s t : State), opClass i = .arithmeticWithOperand → exec i s = .next t →
    t.par = s.par ∧ t.inq = s.inq ∧ t.outq = s.outq ∧ t.icount = s.icount ∧ t.mem = s.mem ∧
    (∀ a : Nat, readCell t a = readCell s a)

/-! ### Round trips (44_memory_access.md) -/

/-- R194: what `store` puts into an ordinary cell, `load` gives back: from every later state in which nothing has
written that cell, whatever `ACC` and the rest of the state hold by then. -/
def Obligations.DirectRoundTrip : Prop :=
  ∀ (s : State) (a : Int), Memory.wf s.par.memFill s.par.memSize s.mem → 2 ≤ a → a < (s.par.memSize : Int) →
    ∃ t, exec (.store a) s = .next t ∧
      ∀ m : State, m.par = s.par → readCell m a.toNat = readCell t a.toNat →
        ∃ u, exec (.load a) m = .next u ∧ u.acc = s.acc ∧ u.status = m.status

/-- R194: what `st` stores through a pointer, `ld` gives back through the same pointer, unless the pointer is 0, 1 or
its own address: from every later state in which nothing has written the pointer or the cell it names, whatever `ACC`
and the rest of the state hold by then. With a pointer of 1 the `ld` gives the cell `MEM[1]`, with a pointer of 0 the
front token, and with a pointer to itself the cell at the stored value, or a fault where that value is no data address.
The check of that value and the state of the fault are the spec's decisions D10 and D12 (log 19, log 12), the range of
output characters its decision D7 (log 18). -/
def Obligations.IndirectRoundTrip : Prop :=
  ∀ (s : State) (a p : Int), Memory.wf s.par.memFill s.par.memSize s.mem →
    0 ≤ a → a < (s.par.memSize : Int) → readCell s a.toNat = p →
    (2 ≤ p → p < (s.par.memSize : Int) → p ≠ a →
      ∃ t, exec (.st a) s = .next t ∧
        ∀ m : State, m.par = s.par → readCell m a.toNat = readCell t a.toNat →
          readCell m p.toNat = readCell t p.toNat →
          ∃ u, exec (.ld a) m = .next u ∧ u.acc = s.acc ∧ u.status = m.status) ∧
    (p = 1 → 1 < s.par.memSize → 0 ≤ s.acc → s.acc ≤ (s.par.charMax : Int) →
      ∃ t u, exec (.st a) s = .next t ∧ exec (.ld a) t = .next u ∧ u.acc = readCell s 1 ∧
        t.outq = s.outq ++ [s.acc]) ∧
    (∀ (c : Int) (rest : List Int), p = 0 → a ≠ 0 → s.inq = c :: rest →
      ∃ t u, exec (.st a) s = .next t ∧ exec (.ld a) t = .next u ∧ u.acc = c ∧ readCell u 0 = s.acc) ∧
    (p = a → 2 ≤ a →
      ∃ t, exec (.st a) s = .next t ∧ readCell t a.toNat = s.acc ∧
        (0 < s.acc → s.acc < (s.par.memSize : Int) → ∀ v : Int,
          ∃ u, exec (.ld a) { t with acc := v } = .next u ∧ u.acc = readCell t s.acc.toNat) ∧
        (¬ (0 ≤ s.acc ∧ s.acc < (s.par.memSize : Int)) → exec (.ld a) t = .next
          { t with ar := a.toNat, tick := t.tick + 1, status := .faulted (.addressRange s.acc) }))
end

