-- ==== Sys2Proof/Laws/Alu.lean ====
section
/-! SUPPORT. The laws of the correction step and of floor division. -/

namespace Sys2Proof.Machine

theorem wrap32_inBand (v : Int) : InBand (wrap32 v) := by
  simp only [InBand, wrap32]
  omega

theorem wrap32_of_inBand (v : Int) (h : InBand v) : wrap32 v = v := by
  simp only [InBand, wrap32] at *
  omega

/-- In the one-step interval the source's correction is the reduction modulo 2^32 (40_datapath_signals.md R119). -/
theorem corr1_eq_wrap32 (raw : Int) (h : OneStep raw) : corr1 raw = wrap32 raw := by
  simp only [OneStep, corr1, wrap32] at *
  split
  · omega
  · split <;> omega

/-- In the one-step interval no policy matters (40_datapath_signals.md R118). -/
theorem corr_oneStep (policy : OvfPolicy) (raw : Int) (h : OneStep raw) : corr policy raw = .ok (wrap32 raw) := by
  simp [corr, h, corr1_eq_wrap32 raw h]

/-- Whatever the policy, a corrected result is in the band (10_state.md R34). -/
theorem corr_inBand (policy : OvfPolicy) (raw v : Int) (h : corr policy raw = .ok v) : InBand v := by
  simp only [corr] at h
  split at h
  · next hs => cases h; rw [corr1_eq_wrap32 raw hs]; exact wrap32_inBand raw
  · cases policy with
    | wrap => cases h; exact wrap32_inBand raw
    | saturate => cases h; simp only [InBand]; split <;> omega
    | fault => cases h

/-- The correction fails only outside the one-step interval, with the policy `fault` and by `ArithmeticOverflow`. -/
theorem corr_error (policy : OvfPolicy) (raw : Int) (c : Condition) (h : corr policy raw = .error c) :
    ¬ OneStep raw ∧ policy = .fault ∧ c = .fault .arithmeticOverflow := by
  simp only [corr] at h
  split at h
  · cases h
  · next hs => cases policy <;> cases h; exact ⟨hs, rfl, rfl⟩

/-- The quotient and the remainder of a floor division (00_scope.md section 6.1). -/
theorem floor_spec (a b : Int) (hb : b ≠ 0) :
    a = b * floorDiv a b + floorMod a b ∧
      (0 ≤ floorMod a b ∧ floorMod a b < b ∨ b < floorMod a b ∧ floorMod a b ≤ 0) := by
  refine ⟨by simp only [floorMod]; omega, ?_⟩
  have hmod : floorMod a b = a.fmod b := by
    have := Int.mul_fdiv_add_fmod a b
    simp only [floorMod, floorDiv]
    omega
  rw [hmod]
  rcases lt_or_gt_of_ne hb with hneg | hpos
  · have h0 := Int.fmod_nonneg_of_pos (-a) (b := -b) (by omega)
    have h1 := Int.fmod_lt_of_pos (-a) (b := -b) (by omega)
    rw [Int.neg_fmod_neg] at h0 h1
    exact .inr ⟨by omega, by omega⟩
  · exact .inl ⟨Int.fmod_nonneg_of_pos a hpos, Int.fmod_lt_of_pos a hpos⟩

/-- The raw results of `inc` and `dec` stay in the one-step interval (40_datapath_signals.md R119). -/
theorem noArgRaw_oneStep (op : NoArgOp) (a : Int) (h : InBand a) : OneStep (noArgRaw op a) := by
  cases op <;> simp only [InBand, OneStep, noArgRaw] at * <;> omega

/-- A quotient of two integers of the band is no larger than 2^31 in magnitude (40_datapath_signals.md R119). -/
theorem floorDiv_bounds (a b : Int) (ha : InBand a) (hb : b ≠ 0) :
    -2147483648 ≤ floorDiv a b ∧ floorDiv a b ≤ 2147483648 := by
  obtain ⟨heq, hrem⟩ := floor_spec a b hb
  simp only [InBand] at ha
  rcases hrem with ⟨h0, h1⟩ | ⟨h1, h0⟩ <;> constructor <;> by_contra hq <;> nlinarith

/-- A remainder is smaller than its divisor, so it stays in the band (40_datapath_signals.md R119). -/
theorem floorMod_inBand (a b : Int) (hb : InBand b) (h : b ≠ 0) : InBand (floorMod a b) := by
  obtain ⟨-, hrem⟩ := floor_spec a b h
  simp only [InBand] at *
  omega

/-- With both operands in the band, only `mul` can leave the one-step interval (40_datapath_signals.md R119). -/
theorem argRaw_oneStep (op : ArgOp) (a b raw : Int) (ha : InBand a) (hb : InBand b) (hop : op ≠ .mul)
    (h : argRaw op a b = .ok raw) : OneStep raw := by
  cases op with
  | add => cases h; simp only [InBand, OneStep] at *; omega
  | sub => cases h; simp only [InBand, OneStep] at *; omega
  | mul => exact absurd rfl hop
  | div =>
    by_cases hz : b = 0
    · simp [argRaw, hz] at h
    · simp only [argRaw, hz, if_false] at h
      cases h
      have := floorDiv_bounds a b ha hz
      simp only [OneStep]
      omega
  | mod =>
    by_cases hz : b = 0
    · simp [argRaw, hz] at h
    · simp only [argRaw, hz, if_false] at h
      cases h
      have := floorMod_inBand a b hb hz
      simp only [InBand, OneStep] at *
      omega

/-- The product of two integers of the band lies in [-2^62 + 2^31, 2^62] (40_datapath_signals.md R119). -/
theorem mul_bounds (a b : Int) (ha : InBand a) (hb : InBand b) :
    -4611686016279904256 ≤ a * b ∧ a * b ≤ 4611686018427387904 := by
  obtain ⟨ha0, ha1⟩ := ha
  obtain ⟨hb0, hb1⟩ := hb
  constructor
  · rcases le_total 0 a with h | h <;> rcases le_total 0 b with h' | h' <;> nlinarith
  · rcases le_total 0 a with h | h <;> rcases le_total 0 b with h' | h' <;> nlinarith

/-- With both operands in the band, no policy matters but for `mul` (40_datapath_signals.md R119). -/
theorem argResult_policy (op : ArgOp) (p q : OvfPolicy) (a b : Int) (ha : InBand a) (hb : InBand b) (hop : op ≠ .mul) :
    argResult p op a b = argResult q op a b := by
  simp only [argResult]
  cases hr : argRaw op a b with
  | error c => rfl
  | ok raw =>
    have h := argRaw_oneStep op a b raw ha hb hop hr
    simp only [corr_oneStep _ raw h]

/-- `arg_op` fails only by a zero divisor or, for `mul` under the policy `fault`, by an overflow (R114). -/
theorem argResult_error (policy : OvfPolicy) (op : ArgOp) (a b : Int) (c : Condition) (ha : InBand a) (hb : InBand b)
    (h : argResult policy op a b = .error c) :
    (c = .fault .divideByZero ∧ b = 0 ∧ (op = .div ∨ op = .mod)) ∨
      (c = .fault .arithmeticOverflow ∧ op = .mul ∧ policy = .fault ∧ ¬ OneStep (a * b)) := by
  simp only [argResult] at h
  cases hr : argRaw op a b with
  | error d =>
    rw [hr] at h
    cases h
    by_cases hz : b = 0
    · cases op <;> simp [argRaw, hz] at hr <;> subst hr
      · exact .inl ⟨rfl, hz, .inl rfl⟩
      · exact .inl ⟨rfl, hz, .inr rfl⟩
    · cases op <;> simp [argRaw, hz] at hr
  | ok raw =>
    rw [hr] at h
    obtain ⟨hout, hpol, hc⟩ := corr_error policy raw c h
    have hop : op = .mul := by
      by_contra hop
      exact hout (argRaw_oneStep op a b raw ha hb hop hr)
    subst hop
    cases hr
    exact .inr ⟨hc, rfl, hpol, hout⟩

/-- A result of `arg_op` is in the band (10_state.md R34). -/
theorem argResult_inBand (policy : OvfPolicy) (op : ArgOp) (a b v : Int) (h : argResult policy op a b = .ok v) :
    InBand v := by
  simp only [argResult] at h
  split at h
  · exact corr_inBand policy _ v h
  · cases h

end Sys2Proof.Machine
end

