-- ==== Sys2Proof/Laws/Memory.lean ====
section
/-! SUPPORT. The laws of the data memory: read after write, the frame of a write, and the canonical form. -/

namespace Sys2Proof.Machine

theorem Memory.read_eq_fill_of_not_listed (fill : Int) (m : Memory) (a : Nat) (h : ∀ c ∈ m, c.1 ≠ a) :
    Memory.read fill m a = fill := by
  induction m with
  | nil => rfl
  | cons c rest ih =>
    obtain ⟨k, v⟩ := c
    have hk : k ≠ a := h (k, v) (by simp)
    simp only [Memory.read, hk, if_false]
    exact ih fun c hc => h c (by simp [hc])

/-- A write leaves every other cell alone, whatever the form of the memory. -/
theorem Memory.read_write_other (fill : Int) (m : Memory) (a b : Nat) (v : Int) (h : b ≠ a) :
    Memory.read fill (Memory.write fill m a v) b = Memory.read fill m b := by
  induction m with
  | nil => by_cases hv : v = fill <;> simp [Memory.write, Memory.read, hv, Ne.symm h]
  | cons c rest ih =>
    obtain ⟨k, w⟩ := c
    simp only [Memory.write]
    split
    · split <;> simp [Memory.read, Ne.symm h]
    · split
      · next _ hk => subst hk; split <;> simp [Memory.read, Ne.symm h]
      · simp [Memory.read, ih]

/-- A read after a write to the same cell gives the value written. -/
theorem Memory.read_write_same (fill : Int) (m : Memory) (a : Nat) (v : Int)
    (h : m.Pairwise fun c d => c.1 < d.1) : Memory.read fill (Memory.write fill m a v) a = v := by
  induction m with
  | nil => by_cases hv : v = fill <;> simp [Memory.write, Memory.read, hv]
  | cons c rest ih =>
    obtain ⟨k, w⟩ := c
    obtain ⟨hk, hrest⟩ := List.pairwise_cons.mp h
    simp only [Memory.write]
    split
    · next hak =>
      split
      · next hv =>
        rw [hv]
        refine Memory.read_eq_fill_of_not_listed fill _ a fun c hc => ?_
        rcases List.mem_cons.mp hc with rfl | hc
        · exact Nat.ne_of_gt hak
        · exact Nat.ne_of_gt (Nat.lt_trans hak (hk c hc))
      · simp [Memory.read]
    · split
      · next _ hak =>
        subst hak
        split
        · next hv =>
          rw [hv]
          exact Memory.read_eq_fill_of_not_listed fill _ _ fun c hc => Nat.ne_of_gt (hk c hc)
        · simp [Memory.read]
      · next hne => simp [Memory.read, Ne.symm hne, ih hrest]

theorem Memory.mem_write (fill : Int) (m : Memory) (a : Nat) (v : Int) (c : Nat × Int)
    (h : c ∈ Memory.write fill m a v) : c ∈ m ∨ (c = (a, v) ∧ v ≠ fill) := by
  induction m with
  | nil => by_cases hv : v = fill <;> simp_all [Memory.write]
  | cons d rest ih =>
    obtain ⟨k, w⟩ := d
    simp only [Memory.write] at h
    split at h
    · split at h
      · exact .inl h
      · next hv => rcases List.mem_cons.mp h with h | h
                   · exact .inr ⟨h, hv⟩
                   · exact .inl h
    · split at h
      · split at h
        · exact .inl (List.mem_cons_of_mem _ h)
        · next hv => rcases List.mem_cons.mp h with h | h
                     · exact .inr ⟨h, hv⟩
                     · exact .inl (List.mem_cons_of_mem _ h)
      · rcases List.mem_cons.mp h with h | h
        · exact .inl (by simp [h])
        · rcases ih h with h | h
          · exact .inl (List.mem_cons_of_mem _ h)
          · exact .inr h

/-- A write to an address of the memory keeps the canonical form. -/
theorem Memory.wf_write (fill : Int) (size : Nat) (m : Memory) (a : Nat) (v : Int) (ha : a < size)
    (h : Memory.wf fill size m) : Memory.wf fill size (Memory.write fill m a v) := by
  obtain ⟨hsorted, hfill, hsize⟩ := h
  refine ⟨?_, fun c hc => ?_, fun c hc => ?_⟩
  · clear hfill hsize ha
    induction m with
    | nil => by_cases hv : v = fill <;> simp [Memory.write, hv]
    | cons d rest ih =>
      obtain ⟨k, w⟩ := d
      obtain ⟨hk, hrest⟩ := List.pairwise_cons.mp hsorted
      simp only [Memory.write]
      split
      · next hak =>
        split
        · exact hsorted
        · refine List.pairwise_cons.mpr ⟨fun c hc => ?_, hsorted⟩
          rcases List.mem_cons.mp hc with rfl | hc
          · exact hak
          · exact Nat.lt_trans hak (hk c hc)
      · split
        · next _ hak =>
          subst hak
          split
          · exact hrest
          · exact List.pairwise_cons.mpr ⟨hk, hrest⟩
        · next hlt hne =>
          refine List.pairwise_cons.mpr ⟨fun c hc => ?_, ih hrest⟩
          rcases Memory.mem_write fill rest a v c hc with hc | ⟨rfl, -⟩
          · exact hk c hc
          · show k < a
            omega
  · rcases Memory.mem_write fill m a v c hc with hc | ⟨rfl, hv⟩
    · exact hfill c hc
    · exact hv
  · rcases Memory.mem_write fill m a v c hc with hc | ⟨rfl, -⟩
    · exact hsize c hc
    · exact ha

theorem Memory.mem_ofImage (fill : Int) (base : Nat) (image : List Int) (c : Nat × Int)
    (h : c ∈ Memory.ofImage fill base image) :
    base ≤ c.1 ∧ c.1 < base + image.length ∧ c.2 ∈ image ∧ c.2 ≠ fill := by
  induction image generalizing base with
  | nil => simp [Memory.ofImage] at h
  | cons v rest ih =>
    simp only [Memory.ofImage] at h
    have tail : c ∈ Memory.ofImage fill (base + 1) rest →
        base ≤ c.1 ∧ c.1 < base + (v :: rest).length ∧ c.2 ∈ v :: rest ∧ c.2 ≠ fill := fun hc => by
      obtain ⟨h1, h2, h3, h4⟩ := ih (base + 1) hc
      exact ⟨by omega, by simp only [List.length_cons]; omega, List.mem_cons_of_mem _ h3, h4⟩
    split at h
    · exact tail h
    · next hv => rcases List.mem_cons.mp h with rfl | h
                 · exact ⟨Nat.le_refl _, by simp, by simp, hv⟩
                 · exact tail h

/-- The memory built from an image that fits is in canonical form. -/
theorem Memory.wf_ofImage (fill : Int) (size : Nat) (base : Nat) (image : List Int)
    (h : base + image.length ≤ size) : Memory.wf fill size (Memory.ofImage fill base image) := by
  refine ⟨?_, fun c hc => (Memory.mem_ofImage fill base image c hc).2.2.2, fun c hc => ?_⟩
  · clear h
    induction image generalizing base with
    | nil => simp [Memory.ofImage]
    | cons v rest ih =>
      simp only [Memory.ofImage]
      split
      · exact ih (base + 1)
      · exact List.pairwise_cons.mpr
          ⟨fun c hc => (Memory.mem_ofImage fill (base + 1) rest c hc).1, ih (base + 1)⟩
  · exact Nat.lt_of_lt_of_le (Memory.mem_ofImage fill base image c hc).2.1 h

/-- The cell `base + n` of a memory built from an image holds the image's element `n`, and the cells after the image
hold `fill`. -/
theorem Memory.read_ofImage (fill : Int) (base : Nat) (image : List Int) (n : Nat) :
    Memory.read fill (Memory.ofImage fill base image) (base + n) = image[n]?.getD fill := by
  induction image generalizing base n with
  | nil => simp [Memory.ofImage, Memory.read]
  | cons v rest ih =>
    cases n with
    | zero =>
      by_cases hv : v = fill
      · simp only [Memory.ofImage, hv, if_true, Nat.add_zero, List.getElem?_cons_zero, Option.getD_some]
        exact Memory.read_eq_fill_of_not_listed fill _ _ fun c hc =>
          Nat.ne_of_gt (Memory.mem_ofImage fill (base + 1) rest c hc).1
      · simp [Memory.ofImage, hv, Memory.read]
    | succ n =>
      have step : base + (n + 1) = (base + 1) + n := by omega
      by_cases hv : v = fill
      · simp [Memory.ofImage, hv, step, ih]
      · have hne : base ≠ base + 1 + n := by omega
        simp [Memory.ofImage, hv, step, ih, Memory.read, hne]

/-- `writeCell` leaves every other cell alone. -/
theorem readCell_writeCell_other (s : State) (a b : Nat) (v : Int) (h : b ≠ a) :
    readCell (writeCell a v s) b = readCell s b :=
  Memory.read_write_other s.par.memFill s.mem a b v h

/-- `writeCell` stores the value. -/
theorem readCell_writeCell_same (s : State) (a : Nat) (v : Int) (h : s.mem.Pairwise fun c d => c.1 < d.1) :
    readCell (writeCell a v s) a = v :=
  Memory.read_write_same s.par.memFill s.mem a v h

end Sys2Proof.Machine
end

