-- ==== Sys2Proof/Laws/PerInstr.lean ====
section
/-! SUPPORT. The per-instruction family `EncodedFields`: the two fields of an encoded word, constructor by
constructor. -/

namespace Sys2Proof.Laws

/-- `OPC` as arithmetic on the word (30_encoding.md R84). -/
theorem opcField_eq (w : Word40) : opcField w = w.toNat / 4294967296 % 256 := by
  simp [opcField, BitVec.extractLsb'_toNat, Nat.shiftRight_eq_div_pow]

/-- `ARG` as arithmetic on the word (30_encoding.md R84). -/
theorem argField_toNat (w : Word40) : (argField w).toNat = w.toNat % 4294967296 := by
  simp [argField, BitVec.extractLsb'_toNat]

/-- A word built from an opcode number and an argument field has this opcode field (30_encoding.md R84, R87). -/
theorem opcField_ofNat (opc : Nat) (arg : BitVec 32) (h : opc < 256) :
    opcField (BitVec.ofNat 40 (opc * 4294967296 + arg.toNat)) = opc := by
  have harg := arg.isLt
  rw [opcField_eq, BitVec.toNat_ofNat]
  omega

/-- A word built from an opcode number and an argument field has this argument field (30_encoding.md R84, R87). -/
theorem argField_ofNat (opc : Nat) (arg : BitVec 32) :
    argField (BitVec.ofNat 40 (opc * 4294967296 + arg.toNat)) = arg := by
  have harg := arg.isLt
  apply BitVec.eq_of_toNat_eq
  rw [argField_toNat, BitVec.toNat_ofNat]
  omega

/-- A word is its two fields (30_encoding.md R84, R87). -/
theorem word_of_fields (w : Word40) : BitVec.ofNat 40 (opcField w * 4294967296 + (argField w).toNat) = w := by
  have hw := w.isLt
  apply BitVec.eq_of_toNat_eq
  rw [BitVec.toNat_ofNat, argField_toNat, opcField_eq]
  omega

/-- What the decoder reads from a record: its mnemonic's place in the set and its argument (30_encoding.md R94). -/
theorem decodeRecord_eq_ok (r : Record) (i : Instr) :
    decodeRecord r = .ok i ↔ mnemonics[opcodeOf i]? = some r.opcode ∧ r.arg = argumentOf i := by
  obtain ⟨index, opcode, arg, term⟩ := r
  constructor
  · intro h
    have hread : mnemonics.idxOf opcode = opcodeOf i ∧ arg = argumentOf i := by
      simp only [decodeRecord] at h
      split at h <;> first
        | (cases h; exact ⟨by assumption, rfl⟩)
        | (split at h
           · split at h <;> cases h
           · cases h)
    refine ⟨?_, hread.2⟩
    have hlt : mnemonics.idxOf opcode < mnemonics.length := by
      rw [hread.1]
      cases i <;> simp [opcodeOf, mnemonics]
    rw [← hread.1, List.getElem?_eq_getElem hlt, List.getElem_idxOf hlt]
  · rintro ⟨hop, harg⟩
    cases i <;> cases hop <;> cases harg <;> rfl

/-- `sext_32` undoes `enc32` on `INT32` (00_scope.md section 6.1). -/
theorem sext32_enc32 (v : Int) (h : InBand v) : sext32 (enc32 v) = v := by
  simp only [InBand] at h
  simp only [sext32, enc32, BitVec.toNat_ofNat]
  by_cases hv : 0 ≤ v
  · simp only [hv, if_true]
    split <;> omega
  · simp only [hv, if_false]
    split <;> omega

/-- `enc32` undoes `sext_32` (00_scope.md section 6.1). -/
theorem enc32_sext32 (b : BitVec 32) : enc32 (sext32 b) = b := by
  have := b.isLt
  apply BitVec.eq_of_toNat_eq
  simp only [sext32, enc32, BitVec.toNat_ofNat]
  split <;> split <;> omega

/-- A sign-extended field is in `INT32` (30_encoding.md R87). -/
theorem sext32_inBand (b : BitVec 32) : InBand (sext32 b) := by
  have := b.isLt
  simp only [InBand, sext32]
  split <;> omega

/-- The fields of the encoded word: `OPC` is the opcode number, and `ARG` is the argument, or zero without one. -/
def EncodedFields.Statement (i : Instr) : Prop :=
  opcField (encode i) = opcodeOf i ∧ (i.wellFormed = true → sext32 (argField (encode i)) = (argumentOf i).getD 0)

theorem EncodedFields.of_argument (i : Instr) (arg : Int) (ha : argumentOf i = some arg) (ho : opcodeOf i < 256)
    (hw : i.wellFormed = true → InBand arg) : EncodedFields.Statement i := by
  have he : encode i = BitVec.ofNat 40 (opcodeOf i * 4294967296 + (enc32 arg).toNat) := by simp only [encode, ha]
  refine ⟨by rw [he, opcField_ofNat _ _ ho], fun h => ?_⟩
  rw [he, argField_ofNat, sext32_enc32 arg (hw h), ha]
  rfl

theorem EncodedFields.of_no_argument (i : Instr) (ha : argumentOf i = none) (ho : opcodeOf i < 256) :
    EncodedFields.Statement i := by
  have he : encode i = BitVec.ofNat 40 (opcodeOf i * 4294967296 + (0#32).toNat) := by
    simp only [encode, ha, BitVec.toNat_ofNat, Nat.zero_mod, Nat.add_zero]
  refine ⟨by rw [he, opcField_ofNat _ _ ho], fun _ => ?_⟩
  rw [he, argField_ofNat, ha]
  rfl

theorem EncodedFields.inc : EncodedFields.Statement .inc := EncodedFields.of_no_argument _ rfl (by decide)
theorem EncodedFields.dec : EncodedFields.Statement .dec := EncodedFields.of_no_argument _ rfl (by decide)
theorem EncodedFields.halt : EncodedFields.Statement .halt := EncodedFields.of_no_argument _ rfl (by decide)
theorem EncodedFields.mov (literal : Int) : EncodedFields.Statement (.mov literal) :=
  EncodedFields.of_argument _ literal rfl (by simp [opcodeOf]) (by simp [Instr.wellFormed])
theorem EncodedFields.load (addr : Int) : EncodedFields.Statement (.load addr) :=
  EncodedFields.of_argument _ addr rfl (by simp [opcodeOf]) (by simp [Instr.wellFormed])
theorem EncodedFields.store (addr : Int) : EncodedFields.Statement (.store addr) :=
  EncodedFields.of_argument _ addr rfl (by simp [opcodeOf]) (by simp [Instr.wellFormed])
theorem EncodedFields.ld (addr : Int) : EncodedFields.Statement (.ld addr) :=
  EncodedFields.of_argument _ addr rfl (by simp [opcodeOf]) (by simp [Instr.wellFormed])
theorem EncodedFields.st (addr : Int) : EncodedFields.Statement (.st addr) :=
  EncodedFields.of_argument _ addr rfl (by simp [opcodeOf]) (by simp [Instr.wellFormed])
theorem EncodedFields.add (addr : Int) : EncodedFields.Statement (.add addr) :=
  EncodedFields.of_argument _ addr rfl (by simp [opcodeOf]) (by simp [Instr.wellFormed])
theorem EncodedFields.sub (addr : Int) : EncodedFields.Statement (.sub addr) :=
  EncodedFields.of_argument _ addr rfl (by simp [opcodeOf]) (by simp [Instr.wellFormed])
theorem EncodedFields.mul (addr : Int) : EncodedFields.Statement (.mul addr) :=
  EncodedFields.of_argument _ addr rfl (by simp [opcodeOf]) (by simp [Instr.wellFormed])
theorem EncodedFields.div (addr : Int) : EncodedFields.Statement (.div addr) :=
  EncodedFields.of_argument _ addr rfl (by simp [opcodeOf]) (by simp [Instr.wellFormed])
theorem EncodedFields.mod (addr : Int) : EncodedFields.Statement (.mod addr) :=
  EncodedFields.of_argument _ addr rfl (by simp [opcodeOf]) (by simp [Instr.wellFormed])
theorem EncodedFields.jmp (target : Int) : EncodedFields.Statement (.jmp target) :=
  EncodedFields.of_argument _ target rfl (by simp [opcodeOf]) (by simp [Instr.wellFormed])
theorem EncodedFields.jz (target : Int) : EncodedFields.Statement (.jz target) :=
  EncodedFields.of_argument _ target rfl (by simp [opcodeOf]) (by simp [Instr.wellFormed])
theorem EncodedFields.jnz (target : Int) : EncodedFields.Statement (.jnz target) :=
  EncodedFields.of_argument _ target rfl (by simp [opcodeOf]) (by simp [Instr.wellFormed])

end Sys2Proof.Laws
end

