-- ==== Sys2Proof/Laws/State.lean ====
section
/-! SUPPORT. One lemma per field for each named update of the state, so that no proof unfolds a record update. -/

namespace Sys2Proof.Machine

@[simp] theorem writeCell_par (a : Nat) (v : Int) (s : State) : (writeCell a v s).par = s.par := rfl
@[simp] theorem writeCell_acc (a : Nat) (v : Int) (s : State) : (writeCell a v s).acc = s.acc := rfl
@[simp] theorem writeCell_ar (a : Nat) (v : Int) (s : State) : (writeCell a v s).ar = s.ar := rfl
@[simp] theorem writeCell_mem (a : Nat) (v : Int) (s : State) : (writeCell a v s).mem = Memory.write s.par.memFill s.mem a v := rfl
@[simp] theorem writeCell_inq (a : Nat) (v : Int) (s : State) : (writeCell a v s).inq = s.inq := rfl
@[simp] theorem writeCell_outq (a : Nat) (v : Int) (s : State) : (writeCell a v s).outq = s.outq := rfl
@[simp] theorem writeCell_pc (a : Nat) (v : Int) (s : State) : (writeCell a v s).pc = s.pc := rfl
@[simp] theorem writeCell_tick (a : Nat) (v : Int) (s : State) : (writeCell a v s).tick = s.tick := rfl
@[simp] theorem writeCell_icount (a : Nat) (v : Int) (s : State) : (writeCell a v s).icount = s.icount := rfl
@[simp] theorem writeCell_status (a : Nat) (v : Int) (s : State) : (writeCell a v s).status = s.status := rfl

@[simp] theorem tickOnce_par (s : State) : (tickOnce s).par = s.par := rfl
@[simp] theorem tickOnce_acc (s : State) : (tickOnce s).acc = s.acc := rfl
@[simp] theorem tickOnce_ar (s : State) : (tickOnce s).ar = s.ar := rfl
@[simp] theorem tickOnce_mem (s : State) : (tickOnce s).mem = s.mem := rfl
@[simp] theorem tickOnce_inq (s : State) : (tickOnce s).inq = s.inq := rfl
@[simp] theorem tickOnce_outq (s : State) : (tickOnce s).outq = s.outq := rfl
@[simp] theorem tickOnce_pc (s : State) : (tickOnce s).pc = s.pc := rfl
@[simp] theorem tickOnce_tick (s : State) : (tickOnce s).tick = s.tick + 1 := rfl
@[simp] theorem tickOnce_icount (s : State) : (tickOnce s).icount = s.icount := rfl
@[simp] theorem tickOnce_status (s : State) : (tickOnce s).status = s.status := rfl

@[simp] theorem advancePc_par (s : State) : (advancePc s).par = s.par := rfl
@[simp] theorem advancePc_acc (s : State) : (advancePc s).acc = s.acc := rfl
@[simp] theorem advancePc_ar (s : State) : (advancePc s).ar = s.ar := rfl
@[simp] theorem advancePc_mem (s : State) : (advancePc s).mem = s.mem := rfl
@[simp] theorem advancePc_inq (s : State) : (advancePc s).inq = s.inq := rfl
@[simp] theorem advancePc_outq (s : State) : (advancePc s).outq = s.outq := rfl
@[simp] theorem advancePc_pc (s : State) : (advancePc s).pc = s.pc + 1 := rfl
@[simp] theorem advancePc_tick (s : State) : (advancePc s).tick = s.tick := rfl
@[simp] theorem advancePc_icount (s : State) : (advancePc s).icount = s.icount := rfl
@[simp] theorem advancePc_status (s : State) : (advancePc s).status = s.status := rfl

@[simp] theorem jumpTo_par (target : Int) (s : State) : (jumpTo target s).par = s.par := rfl
@[simp] theorem jumpTo_acc (target : Int) (s : State) : (jumpTo target s).acc = s.acc := rfl
@[simp] theorem jumpTo_ar (target : Int) (s : State) : (jumpTo target s).ar = s.ar := rfl
@[simp] theorem jumpTo_mem (target : Int) (s : State) : (jumpTo target s).mem = s.mem := rfl
@[simp] theorem jumpTo_inq (target : Int) (s : State) : (jumpTo target s).inq = s.inq := rfl
@[simp] theorem jumpTo_outq (target : Int) (s : State) : (jumpTo target s).outq = s.outq := rfl
@[simp] theorem jumpTo_pc (target : Int) (s : State) : (jumpTo target s).pc = target := rfl
@[simp] theorem jumpTo_tick (target : Int) (s : State) : (jumpTo target s).tick = s.tick := rfl
@[simp] theorem jumpTo_icount (target : Int) (s : State) : (jumpTo target s).icount = s.icount := rfl
@[simp] theorem jumpTo_status (target : Int) (s : State) : (jumpTo target s).status = s.status := rfl

@[simp] theorem countInstruction_par (s : State) : (countInstruction s).par = s.par := rfl
@[simp] theorem countInstruction_acc (s : State) : (countInstruction s).acc = s.acc := rfl
@[simp] theorem countInstruction_ar (s : State) : (countInstruction s).ar = s.ar := rfl
@[simp] theorem countInstruction_mem (s : State) : (countInstruction s).mem = s.mem := rfl
@[simp] theorem countInstruction_inq (s : State) : (countInstruction s).inq = s.inq := rfl
@[simp] theorem countInstruction_outq (s : State) : (countInstruction s).outq = s.outq := rfl
@[simp] theorem countInstruction_pc (s : State) : (countInstruction s).pc = s.pc := rfl
@[simp] theorem countInstruction_tick (s : State) : (countInstruction s).tick = s.tick := rfl
@[simp] theorem countInstruction_icount (s : State) : (countInstruction s).icount = s.icount + 1 := rfl
@[simp] theorem countInstruction_status (s : State) : (countInstruction s).status = s.status := rfl

@[simp] theorem raiseCondition_par (c : Condition) (s : State) : (raiseCondition c s).par = s.par := rfl
@[simp] theorem raiseCondition_acc (c : Condition) (s : State) : (raiseCondition c s).acc = s.acc := rfl
@[simp] theorem raiseCondition_ar (c : Condition) (s : State) : (raiseCondition c s).ar = s.ar := rfl
@[simp] theorem raiseCondition_mem (c : Condition) (s : State) : (raiseCondition c s).mem = s.mem := rfl
@[simp] theorem raiseCondition_inq (c : Condition) (s : State) : (raiseCondition c s).inq = s.inq := rfl
@[simp] theorem raiseCondition_outq (c : Condition) (s : State) : (raiseCondition c s).outq = s.outq := rfl
@[simp] theorem raiseCondition_pc (c : Condition) (s : State) : (raiseCondition c s).pc = s.pc := rfl
@[simp] theorem raiseCondition_tick (c : Condition) (s : State) : (raiseCondition c s).tick = s.tick := rfl
@[simp] theorem raiseCondition_icount (c : Condition) (s : State) : (raiseCondition c s).icount = s.icount := rfl
@[simp] theorem raiseCondition_status (c : Condition) (s : State) : (raiseCondition c s).status = c.status := rfl

@[simp] theorem readCell_tickOnce (s : State) (a : Nat) : readCell (tickOnce s) a = readCell s a := rfl
@[simp] theorem readCell_advancePc (s : State) (a : Nat) : readCell (advancePc s) a = readCell s a := rfl
@[simp] theorem readCell_jumpTo (target : Int) (s : State) (a : Nat) : readCell (jumpTo target s) a = readCell s a := rfl
@[simp] theorem readCell_countInstruction (s : State) (a : Nat) : readCell (countInstruction s) a = readCell s a := rfl
@[simp] theorem readCell_raiseCondition (c : Condition) (s : State) (a : Nat) :
    readCell (raiseCondition c s) a = readCell s a := rfl

/-- A raised condition never leaves the machine running (60_exceptions.md R234). -/
@[simp] theorem Condition.status_ne_running (c : Condition) : c.status ≠ .running := by cases c <;> simp [Condition.status]

end Sys2Proof.Machine
end

