-- ==== Sys2Proof/Laws/Signals.lean ====
section
/-! SUPPORT. What each signal can do when it completes, when it fails, and what a sequence of signals can do. -/

namespace Sys2Proof.Machine

/-- A value is a data address exactly when it is the cast of an index below `MEM_SIZE`. -/
theorem dataAddress_eq_some (memSize : Nat) (v : Int) (a : Nat) :
    dataAddress memSize v = some a ↔ v = (a : Int) ∧ a < memSize := by
  simp only [dataAddress]
  constructor
  · intro h
    split at h
    · cases h; omega
    · cases h
  · rintro ⟨rfl, h⟩
    simp [h]

theorem dataAddress_eq_none (memSize : Nat) (v : Int) :
    dataAddress memSize v = none ↔ ¬ (0 ≤ v ∧ v < (memSize : Int)) := by
  simp only [dataAddress]
  split <;> simp_all

theorem dataAddress_of_valid (memSize : Nat) (v : Int) (h : 0 ≤ v ∧ v < (memSize : Int)) :
    dataAddress memSize v = some v.toNat := by
  simp [dataAddress, h]

theorem latchAddress_ok (addr : Int) (s t : State) :
    latchAddress addr s = .ok t ↔ ∃ a, directAddress s addr = some a ∧ t = { s with ar := a } := by
  simp only [latchAddress]
  cases directAddress s addr <;> simp [eq_comm]

theorem addressByAddress_ok (s t : State) :
    addressByAddress s = .ok t ↔ ∃ p, pointerAddress s s.ar = some p ∧ t = { s with ar := p } := by
  simp only [addressByAddress]
  cases pointerAddress s s.ar <;> simp [eq_comm]

theorem latchAccumulator_ok (s t : State) :
    latchAccumulator s = .ok t ↔
      (s.ar = 0 ∧ ∃ c rest, s.inq = c :: rest ∧ t = { s with acc := c, inq := rest }) ∨
        (s.ar ≠ 0 ∧ t = { s with acc := readCell s s.ar }) := by
  simp only [latchAccumulator]
  by_cases har : s.ar = 0
  · cases hin : s.inq <;> simp [har, eq_comm]
  · simp [har, eq_comm]

theorem writeAccumulator_ok (s t : State) :
    writeAccumulator s = .ok t ↔
      (s.ar = 1 ∧ 0 ≤ s.acc ∧ s.acc ≤ (s.par.charMax : Int) ∧ t = { s with outq := s.outq ++ [s.acc] }) ∨
        (s.ar ≠ 1 ∧ t = writeCell s.ar s.acc s) := by
  simp only [writeAccumulator]
  by_cases har : s.ar = 1
  · by_cases hbad : s.acc < 0 ∨ (s.par.charMax : Int) < s.acc
    · simp only [har, hbad, if_true, reduceCtorEq, false_iff]
      rintro (⟨-, h0, h1, -⟩ | ⟨h, -⟩)
      · omega
      · exact h rfl
    · have : 0 ≤ s.acc ∧ s.acc ≤ (s.par.charMax : Int) := by omega
      simp [har, hbad, this, eq_comm]
  · simp [har, eq_comm]

theorem noArgOp_ok (op : NoArgOp) (s t : State) :
    noArgOp op s = .ok t ↔ ∃ v, corr s.par.ovfPolicy (noArgRaw op s.acc) = .ok v ∧ t = { s with acc := v } := by
  simp only [noArgOp]
  cases corr s.par.ovfPolicy (noArgRaw op s.acc) <;> simp [eq_comm]

theorem argOp_ok (op : ArgOp) (s t : State) :
    argOp op s = .ok t ↔
      ∃ v, argResult s.par.ovfPolicy op s.acc (readCell s s.ar) = .ok v ∧ t = { s with acc := v } := by
  simp only [argOp]
  cases argResult s.par.ovfPolicy op s.acc (readCell s s.ar) <;> simp [eq_comm]

/-- With `ACC` in the band, `no_arg_op` cannot fail, whatever the policy (40_datapath_signals.md R113). -/
theorem noArgOp_of_inBand (op : NoArgOp) (s : State) (h : InBand s.acc) :
    noArgOp op s = .ok { s with acc := wrap32 (noArgRaw op s.acc) } := by
  simp [noArgOp, corr_oneStep _ _ (noArgRaw_oneStep op s.acc h)]

/-- What a completed signal leaves alone: "The DataPath signals never read or write `PC`, `TICK`, `ICOUNT` or `STATUS`"
(40_datapath_signals.md R123), and the parameters (10_state.md R36). -/
theorem runSignal_frame (sig : Signal) (s t : State) (h : runSignal sig s = .ok t) :
    t.par = s.par ∧ t.pc = s.pc ∧ t.tick = s.tick ∧ t.icount = s.icount ∧ t.status = s.status := by
  cases sig with
  | latchAddress addr => obtain ⟨a, -, rfl⟩ := (latchAddress_ok addr s t).mp h; simp
  | addressByAddress => obtain ⟨p, -, rfl⟩ := (addressByAddress_ok s t).mp h; simp
  | latchAccumulator =>
    rcases (latchAccumulator_ok s t).mp h with ⟨-, c, rest, -, rfl⟩ | ⟨-, rfl⟩ <;> simp
  | write => rcases (writeAccumulator_ok s t).mp h with ⟨-, -, -, rfl⟩ | ⟨-, rfl⟩ <;> simp
  | setAccumulator value => cases h; simp
  | noArgOp op => obtain ⟨v, -, rfl⟩ := (noArgOp_ok op s t).mp h; simp
  | argOp op => obtain ⟨v, -, rfl⟩ := (argOp_ok op s t).mp h; simp

/-- The cell under the output port is written by no signal (20_memory.md R54). -/
theorem runSignal_readCell_one (sig : Signal) (s t : State) (h : runSignal sig s = .ok t) :
    readCell t 1 = readCell s 1 := by
  cases sig with
  | latchAddress addr => obtain ⟨a, -, rfl⟩ := (latchAddress_ok addr s t).mp h; rfl
  | addressByAddress => obtain ⟨p, -, rfl⟩ := (addressByAddress_ok s t).mp h; rfl
  | latchAccumulator =>
    rcases (latchAccumulator_ok s t).mp h with ⟨-, c, rest, -, rfl⟩ | ⟨-, rfl⟩ <;> rfl
  | write =>
    rcases (writeAccumulator_ok s t).mp h with ⟨-, -, -, rfl⟩ | ⟨har, rfl⟩
    · rfl
    · exact readCell_writeCell_other s s.ar 1 s.acc (Ne.symm har)
  | setAccumulator value => cases h; rfl
  | noArgOp op => obtain ⟨v, -, rfl⟩ := (noArgOp_ok op s t).mp h; rfl
  | argOp op => obtain ⟨v, -, rfl⟩ := (argOp_ok op s t).mp h; rfl

/-- The queues: a signal removes at most the front token and appends at most one character (10_state.md R28, R29). -/
theorem runSignal_queues (sig : Signal) (s t : State) (h : runSignal sig s = .ok t) :
    (∃ popped, popped.length ≤ 1 ∧ s.inq = popped ++ t.inq) ∧
      ∃ out, out.length ≤ 1 ∧ t.outq = s.outq ++ out := by
  cases sig with
  | latchAddress addr => obtain ⟨a, -, rfl⟩ := (latchAddress_ok addr s t).mp h; exact ⟨⟨[], by simp⟩, [], by simp⟩
  | addressByAddress => obtain ⟨p, -, rfl⟩ := (addressByAddress_ok s t).mp h; exact ⟨⟨[], by simp⟩, [], by simp⟩
  | latchAccumulator =>
    rcases (latchAccumulator_ok s t).mp h with ⟨-, c, rest, hin, rfl⟩ | ⟨-, rfl⟩
    · exact ⟨⟨[c], by simp [hin]⟩, [], by simp⟩
    · exact ⟨⟨[], by simp⟩, [], by simp⟩
  | write =>
    rcases (writeAccumulator_ok s t).mp h with ⟨-, -, -, rfl⟩ | ⟨-, rfl⟩
    · exact ⟨⟨[], by simp⟩, [s.acc], by simp⟩
    · exact ⟨⟨[], by simp⟩, [], by simp⟩
  | setAccumulator value => cases h; exact ⟨⟨[], by simp⟩, [], by simp⟩
  | noArgOp op => obtain ⟨v, -, rfl⟩ := (noArgOp_ok op s t).mp h; exact ⟨⟨[], by simp⟩, [], by simp⟩
  | argOp op => obtain ⟨v, -, rfl⟩ := (argOp_ok op s t).mp h; exact ⟨⟨[], by simp⟩, [], by simp⟩

/-- Every way a signal can fail (40_datapath_signals.md R110 to R116). -/
theorem runSignal_error (sig : Signal) (s : State) (c : Condition) (h : runSignal sig s = .error c) :
    (∃ addr, c = .fault (.addressRange addr) ∧
        (sig = .latchAddress addr ∨ (sig = .addressByAddress ∧ addr = readCell s s.ar))) ∨
      (sig = .latchAccumulator ∧ c = .inputExhausted ∧ s.ar = 0 ∧ s.inq = []) ∨
      (sig = .write ∧ c = .fault (.outputRange s.acc) ∧ s.ar = 1) ∨
      (∃ op, sig = .noArgOp op ∧ corr s.par.ovfPolicy (noArgRaw op s.acc) = .error c) ∨
      ∃ op, sig = .argOp op ∧ argResult s.par.ovfPolicy op s.acc (readCell s s.ar) = .error c := by
  cases sig with
  | latchAddress addr =>
    simp only [runSignal, latchAddress] at h
    split at h
    · cases h
    · cases h; exact .inl ⟨addr, rfl, .inl rfl⟩
  | addressByAddress =>
    simp only [runSignal, addressByAddress] at h
    split at h
    · cases h
    · cases h; exact .inl ⟨_, rfl, .inr ⟨rfl, rfl⟩⟩
  | latchAccumulator =>
    simp only [runSignal, latchAccumulator] at h
    split at h
    · next har =>
      split at h
      · next hin => cases h; exact .inr (.inl ⟨rfl, rfl, har, hin⟩)
      · cases h
    · cases h
  | write =>
    simp only [runSignal, writeAccumulator] at h
    split at h
    · next har =>
      split at h
      · cases h; exact .inr (.inr (.inl ⟨rfl, rfl, har⟩))
      · cases h
    · cases h
  | setAccumulator value => cases h
  | noArgOp op =>
    simp only [runSignal, noArgOp] at h
    cases hc : corr s.par.ovfPolicy (noArgRaw op s.acc) with
    | ok v => rw [hc] at h; cases h
    | error d => rw [hc] at h; cases h; exact .inr (.inr (.inr (.inl ⟨op, rfl, hc⟩)))
  | argOp op =>
    simp only [runSignal, argOp] at h
    cases hc : argResult s.par.ovfPolicy op s.acc (readCell s s.ar) with
    | ok v => rw [hc] at h; cases h
    | error d => rw [hc] at h; cases h; exact .inr (.inr (.inr (.inr ⟨op, rfl, hc⟩)))

/-- A completed signal: its tick, then the rest of the sequence. -/
theorem runSignals_cons_ok (sig : Signal) (rest : List Signal) (s t : State) (h : runSignal sig s = .ok t) :
    runSignals (sig :: rest) s = runSignals rest (tickOnce t) := by
  simp only [runSignals, h]

/-- A failed signal: its condition, and nothing after it. -/
theorem runSignals_cons_error (sig : Signal) (rest : List Signal) (s : State) (c : Condition)
    (h : runSignal sig s = .error c) : runSignals (sig :: rest) s = raiseCondition c s := by
  simp only [runSignals, h]

/-- Everything a sequence of signals does to the control state. It ends in one of two ways: all signals completed, each
costing one tick, and `PC` advanced; or a condition was raised before the last tick, with `PC` kept
(41_control_cycle.md R144, R146; 60_exceptions.md R231). -/
theorem runSignals_control (sigs : List Signal) (s : State) :
    (runSignals sigs s).par = s.par ∧ (runSignals sigs s).icount = s.icount ∧
      (((runSignals sigs s).status = s.status ∧ (runSignals sigs s).pc = s.pc + 1 ∧
          (runSignals sigs s).tick = s.tick + sigs.length) ∨
        ∃ c : Condition, (runSignals sigs s).status = c.status ∧ (runSignals sigs s).pc = s.pc ∧
          s.tick ≤ (runSignals sigs s).tick ∧ (runSignals sigs s).tick < s.tick + sigs.length) := by
  induction sigs generalizing s with
  | nil => exact ⟨rfl, rfl, .inl ⟨rfl, rfl, rfl⟩⟩
  | cons sig rest ih =>
    simp only [runSignals]
    cases hs : runSignal sig s with
    | error c => exact ⟨rfl, rfl, .inr ⟨c, by simp⟩⟩
    | ok t =>
      obtain ⟨hpar, hpc, htick, hic, hst⟩ := runSignal_frame sig s t hs
      obtain ⟨ipar, iic, icase⟩ := ih (tickOnce t)
      simp only [tickOnce_par, tickOnce_icount, tickOnce_status, tickOnce_pc, tickOnce_tick, hpar, hpc, htick, hic,
        hst] at ipar iic icase
      refine ⟨ipar, iic, ?_⟩
      simp only [List.length_cons]
      rcases icase with ⟨h1, h2, h3⟩ | ⟨c, h1, h2, h3, h4⟩
      · exact .inl ⟨h1, h2, by omega⟩
      · exact .inr ⟨c, h1, h2, by omega, by omega⟩

/-- A property that every signal of a sequence, every tick, the `PC` update and every raised condition keep holds after
the sequence. -/
theorem runSignals_induction (P : State → Prop) (sigs : List Signal)
    (signal : ∀ sig ∈ sigs, ∀ s t, P s → runSignal sig s = .ok t → P t)
    (tick : ∀ s, P s → P (tickOnce s)) (advance : ∀ s, P s → P (advancePc s))
    (raised : ∀ c s, P s → P (raiseCondition c s)) (s : State) (h : P s) : P (runSignals sigs s) := by
  induction sigs generalizing s with
  | nil => exact advance s h
  | cons sig rest ih =>
    simp only [runSignals]
    cases hs : runSignal sig s with
    | error c => exact raised c s h
    | ok t =>
      exact ih (fun sig' hsig => signal sig' (List.mem_cons_of_mem _ hsig)) _
        (tick t (signal sig (by simp) s t h hs))

/-- A direct address that is valid: latched, one tick, and the rest of the sequence (40_datapath_signals.md R110). -/
theorem runSignals_latch_valid (addr : Int) (a : Nat) (rest : List Signal) (s : State)
    (h : directAddress s addr = some a) :
    runSignals (.latchAddress addr :: rest) s = runSignals rest { s with ar := a, tick := s.tick + 1 } :=
  runSignals_cons_ok (.latchAddress addr) rest s _ ((latchAddress_ok addr s _).mpr ⟨a, h, rfl⟩)

/-- An argument that is no data address ends the instruction at its first signal (60_exceptions.md R225). -/
theorem runSignals_latch_invalid (addr : Int) (rest : List Signal) (s : State) (h : directAddress s addr = none) :
    runSignals (.latchAddress addr :: rest) s = { s with status := .faulted (.addressRange addr) } :=
  runSignals_cons_error (.latchAddress addr) rest s (.fault (.addressRange addr)) (by simp [runSignal, latchAddress, h])

/-- An indirect address that is valid: the pointer's value is latched after two ticks (40_datapath_signals.md R115). -/
theorem runSignals_indirect_valid (addr : Int) (a p : Nat) (rest : List Signal) (s : State)
    (h : directAddress s addr = some a) (hp : pointerAddress s a = some p) :
    runSignals (.latchAddress addr :: .addressByAddress :: rest) s =
      runSignals rest { s with ar := p, tick := s.tick + 2 } := by
  rw [runSignals_latch_valid addr a _ s h]
  exact runSignals_cons_ok .addressByAddress rest { s with ar := a, tick := s.tick + 1 } _
    ((addressByAddress_ok _ _).mpr ⟨p, hp, rfl⟩)

/-- A pointer that names no data address ends the instruction at its second signal (60_exceptions.md R225). -/
theorem runSignals_indirect_invalid (addr : Int) (a : Nat) (rest : List Signal) (s : State)
    (h : directAddress s addr = some a) (hp : pointerAddress s a = none) :
    runSignals (.latchAddress addr :: .addressByAddress :: rest) s =
      { s with ar := a, tick := s.tick + 1, status := .faulted (.addressRange (readCell s a)) } := by
  rw [runSignals_latch_valid addr a _ s h]
  refine runSignals_cons_error .addressByAddress rest { s with ar := a, tick := s.tick + 1 }
    (.fault (.addressRange (readCell s a))) ?_
  have hp' : pointerAddress { s with ar := a, tick := s.tick + 1 } a = none := hp
  simp only [runSignal, addressByAddress, hp']
  rfl

/-- The last signal of `load` and `ld` at an ordinary cell (40_datapath_signals.md R111). -/
theorem runSignals_read_cell (s : State) (h : s.ar ≠ 0) :
    runSignals [.latchAccumulator] s = { s with acc := readCell s s.ar, tick := s.tick + 1, pc := s.pc + 1 } :=
  runSignals_cons_ok .latchAccumulator [] s _ ((latchAccumulator_ok s _).mpr (.inr ⟨h, rfl⟩))

/-- The last signal of `load` and `ld` at the input port with a token (40_datapath_signals.md R111). -/
theorem runSignals_read_port (s : State) (c : Int) (rest : List Int) (h : s.ar = 0) (hin : s.inq = c :: rest) :
    runSignals [.latchAccumulator] s = { s with acc := c, inq := rest, tick := s.tick + 1, pc := s.pc + 1 } :=
  runSignals_cons_ok .latchAccumulator [] s _ ((latchAccumulator_ok s _).mpr (.inl ⟨h, c, rest, hin, rfl⟩))

/-- The last signal of `load` and `ld` at the input port without a token (60_exceptions.md R223). -/
theorem runSignals_read_empty (s : State) (h : s.ar = 0) (hin : s.inq = []) :
    runSignals [.latchAccumulator] s = { s with status := .inputExhausted } :=
  runSignals_cons_error .latchAccumulator [] s .inputExhausted (by simp [runSignal, latchAccumulator, h, hin])

/-- The last signal of `store` and `st` at an ordinary cell (40_datapath_signals.md R112). -/
theorem runSignals_write_cell (s : State) (h : s.ar ≠ 1) :
    runSignals [.write] s = { writeCell s.ar s.acc s with tick := s.tick + 1, pc := s.pc + 1 } :=
  runSignals_cons_ok .write [] s _ ((writeAccumulator_ok s _).mpr (.inr ⟨h, rfl⟩))

/-- The last signal of `store` and `st` at the output port with a character code (40_datapath_signals.md R112). -/
theorem runSignals_write_port (s : State) (h : s.ar = 1) (h0 : 0 ≤ s.acc) (h1 : s.acc ≤ (s.par.charMax : Int)) :
    runSignals [.write] s = { s with outq := s.outq ++ [s.acc], tick := s.tick + 1, pc := s.pc + 1 } :=
  runSignals_cons_ok .write [] s _ ((writeAccumulator_ok s _).mpr (.inl ⟨h, h0, h1, rfl⟩))

/-- The last signal of `store` and `st` at the output port with no character code (60_exceptions.md R229). -/
theorem runSignals_write_fault (s : State) (h : s.ar = 1) (hbad : s.acc < 0 ∨ (s.par.charMax : Int) < s.acc) :
    runSignals [.write] s = { s with status := .faulted (.outputRange s.acc) } :=
  runSignals_cons_error .write [] s (.fault (.outputRange s.acc)) (by simp [runSignal, writeAccumulator, h, hbad])

/-- `inc` and `dec` with `ACC` in the band (40_datapath_signals.md R113). -/
theorem runSignals_noArgOp (op : NoArgOp) (s : State) (h : InBand s.acc) :
    runSignals [.noArgOp op] s =
      { s with acc := wrap32 (noArgRaw op s.acc), tick := s.tick + 1, pc := s.pc + 1 } :=
  runSignals_cons_ok (.noArgOp op) [] s _ (noArgOp_of_inBand op s h)

/-- An arithmetic instruction that completes (45_arithmetic.md R207). -/
theorem runSignals_argOp_ok (op : ArgOp) (addr v : Int) (a : Nat) (s : State) (h : directAddress s addr = some a)
    (hv : argResult s.par.ovfPolicy op s.acc (readCell s a) = .ok v) :
    runSignals [.latchAddress addr, .argOp op] s =
      { s with ar := a, acc := v, tick := s.tick + 2, pc := s.pc + 1 } := by
  rw [runSignals_latch_valid addr a _ s h]
  exact runSignals_cons_ok (.argOp op) [] _ _ ((argOp_ok op _ _).mpr ⟨v, hv, rfl⟩)

/-- An arithmetic instruction whose second signal fails (45_arithmetic.md R207, 60_exceptions.md R228, R230). -/
theorem runSignals_argOp_error (op : ArgOp) (addr : Int) (a : Nat) (c : Condition) (s : State)
    (h : directAddress s addr = some a) (hc : argResult s.par.ovfPolicy op s.acc (readCell s a) = .error c) :
    runSignals [.latchAddress addr, .argOp op] s =
      { s with ar := a, tick := s.tick + 1, status := c.status } := by
  rw [runSignals_latch_valid addr a _ s h]
  refine runSignals_cons_error (.argOp op) [] _ c ?_
  have hc' : argResult s.par.ovfPolicy op s.acc (readCell { s with ar := a, tick := s.tick + 1 } a) = .error c := hc
  simp only [runSignal, argOp, hc']

/-- Every way the last signal of `load` and `ld` ends (40_datapath_signals.md R111). -/
theorem runSignals_read_cases (s : State) :
    (∃ c rest, s.ar = 0 ∧ s.inq = c :: rest ∧
        runSignals [.latchAccumulator] s = { s with acc := c, inq := rest, tick := s.tick + 1, pc := s.pc + 1 }) ∨
      (s.ar = 0 ∧ s.inq = [] ∧ runSignals [.latchAccumulator] s = { s with status := .inputExhausted }) ∨
      (s.ar ≠ 0 ∧
        runSignals [.latchAccumulator] s = { s with acc := readCell s s.ar, tick := s.tick + 1, pc := s.pc + 1 }) := by
  by_cases h : s.ar = 0
  · by_cases hin : s.inq = []
    · exact .inr (.inl ⟨h, hin, runSignals_read_empty s h hin⟩)
    · obtain ⟨c, rest, hin⟩ := List.exists_cons_of_ne_nil hin
      exact .inl ⟨c, rest, h, hin, runSignals_read_port s c rest h hin⟩
  · exact .inr (.inr ⟨h, runSignals_read_cell s h⟩)

/-- Every way the last signal of `store` and `st` ends (40_datapath_signals.md R112). -/
theorem runSignals_write_cases (s : State) :
    (s.ar = 1 ∧ 0 ≤ s.acc ∧ s.acc ≤ (s.par.charMax : Int) ∧
        runSignals [.write] s = { s with outq := s.outq ++ [s.acc], tick := s.tick + 1, pc := s.pc + 1 }) ∨
      (s.ar = 1 ∧ runSignals [.write] s = { s with status := .faulted (.outputRange s.acc) }) ∨
      (s.ar ≠ 1 ∧ runSignals [.write] s = { writeCell s.ar s.acc s with tick := s.tick + 1, pc := s.pc + 1 }) := by
  by_cases h : s.ar = 1
  · by_cases hbad : s.acc < 0 ∨ (s.par.charMax : Int) < s.acc
    · exact .inr (.inl ⟨h, runSignals_write_fault s h hbad⟩)
    · exact .inl ⟨h, by omega, by omega, runSignals_write_port s h (by omega) (by omega)⟩
  · exact .inr (.inr ⟨h, runSignals_write_cell s h⟩)

/-- Every way a sequence that begins with a direct address goes on (40_datapath_signals.md R110). -/
theorem runSignals_latch_cases (addr : Int) (rest : List Signal) (s : State) :
    (directAddress s addr = none ∧
        runSignals (.latchAddress addr :: rest) s = { s with status := .faulted (.addressRange addr) }) ∨
      ∃ a, directAddress s addr = some a ∧
        runSignals (.latchAddress addr :: rest) s = runSignals rest { s with ar := a, tick := s.tick + 1 } := by
  cases h : directAddress s addr with
  | none => exact .inl ⟨rfl, runSignals_latch_invalid addr rest s h⟩
  | some a => exact .inr ⟨a, rfl, runSignals_latch_valid addr a rest s h⟩

/-- Every way a sequence that begins with an indirect address goes on (40_datapath_signals.md R110, R115). -/
theorem runSignals_indirect_cases (addr : Int) (rest : List Signal) (s : State) :
    (directAddress s addr = none ∧
        runSignals (.latchAddress addr :: .addressByAddress :: rest) s =
          { s with status := .faulted (.addressRange addr) }) ∨
      (∃ a, directAddress s addr = some a ∧ pointerAddress s a = none ∧
        runSignals (.latchAddress addr :: .addressByAddress :: rest) s =
          { s with ar := a, tick := s.tick + 1, status := .faulted (.addressRange (readCell s a)) }) ∨
      ∃ a p, directAddress s addr = some a ∧ pointerAddress s a = some p ∧
        runSignals (.latchAddress addr :: .addressByAddress :: rest) s =
          runSignals rest { s with ar := p, tick := s.tick + 2 } := by
  cases h : directAddress s addr with
  | none => exact .inl ⟨rfl, runSignals_latch_invalid addr _ s h⟩
  | some a =>
    cases hp : pointerAddress s a with
    | none => exact .inr (.inl ⟨a, rfl, hp, runSignals_indirect_invalid addr a rest s h hp⟩)
    | some p => exact .inr (.inr ⟨a, p, rfl, hp, runSignals_indirect_valid addr a p rest s h hp⟩)

/-- Every way an arithmetic instruction ends (45_arithmetic.md R207). -/
theorem runSignals_argOp_cases (op : ArgOp) (addr : Int) (s : State) :
    (directAddress s addr = none ∧
        runSignals [.latchAddress addr, .argOp op] s = { s with status := .faulted (.addressRange addr) }) ∨
      (∃ a v, directAddress s addr = some a ∧ argResult s.par.ovfPolicy op s.acc (readCell s a) = .ok v ∧
        runSignals [.latchAddress addr, .argOp op] s =
          { s with ar := a, acc := v, tick := s.tick + 2, pc := s.pc + 1 }) ∨
      ∃ a c, directAddress s addr = some a ∧ argResult s.par.ovfPolicy op s.acc (readCell s a) = .error c ∧
        runSignals [.latchAddress addr, .argOp op] s =
          { s with ar := a, tick := s.tick + 1, status := c.status } := by
  cases h : directAddress s addr with
  | none => exact .inl ⟨rfl, runSignals_latch_invalid addr _ s h⟩
  | some a =>
    cases hr : argResult s.par.ovfPolicy op s.acc (readCell s a) with
    | ok v => exact .inr (.inl ⟨a, v, rfl, hr, runSignals_argOp_ok op addr v a s h hr⟩)
    | error c => exact .inr (.inr ⟨a, c, rfl, hr, runSignals_argOp_error op addr a c s h hr⟩)

/-- Every way `inc` and `dec` end, `ACC` outside the band included (40_datapath_signals.md R113). -/
theorem runSignals_noArgOp_cases (op : NoArgOp) (s : State) :
    (∃ v, corr s.par.ovfPolicy (noArgRaw op s.acc) = .ok v ∧
        runSignals [.noArgOp op] s = { s with acc := v, tick := s.tick + 1, pc := s.pc + 1 }) ∨
      ∃ c, corr s.par.ovfPolicy (noArgRaw op s.acc) = .error c ∧
        runSignals [.noArgOp op] s = { s with status := c.status } := by
  cases h : corr s.par.ovfPolicy (noArgRaw op s.acc) with
  | ok v => exact .inl ⟨v, rfl, runSignals_cons_ok (.noArgOp op) [] s _ ((noArgOp_ok op s _).mpr ⟨v, h, rfl⟩)⟩
  | error c => exact .inr ⟨c, rfl, runSignals_cons_error (.noArgOp op) [] s c (by simp only [runSignal, noArgOp, h])⟩

end Sys2Proof.Machine
end

