-- ==== Sys2Proof/Laws/Step.lean ====
section
/-! SUPPORT. What `exec` and `step` can do: the two shapes of a meaning, the cases of a step, and the fetch of a placed
word. -/

namespace Sys2Proof.Machine

/-- Everything an instruction can be: a sequence of signals as long as its class's ticks, one of the three jumps, or
`halt`. -/
theorem exec_cases (i : Instr) (s : State) :
    (signalSequence i ≠ [] ∧ (signalSequence i).length = (opClass i).ticks ∧
        exec i s = .next (runSignals (signalSequence i) s)) ∨
      (∃ target, (i = .jmp target ∨ i = .jz target ∨ i = .jnz target) ∧
        (exec i s = .next (tickOnce (jumpTo target s)) ∨ exec i s = .next (tickOnce (advancePc s)))) ∨
      (i = .halt ∧ exec i s = .next (raiseCondition .halted s)) := by
  cases i with
  | jmp target => exact .inr (.inl ⟨target, .inl rfl, .inl rfl⟩)
  | jz target =>
    refine .inr (.inl ⟨target, .inr (.inl rfl), ?_⟩)
    cases hz : zero s <;> simp [exec, execJz, hz]
  | jnz target =>
    refine .inr (.inl ⟨target, .inr (.inr rfl), ?_⟩)
    cases hz : zero s <;> simp [exec, execJnz, hz]
  | halt => exact .inr (.inr ⟨rfl, rfl⟩)
  | _ => exact .inl ⟨List.cons_ne_nil _ _, rfl, rfl⟩

/-- Every instruction answers a next state: a raised condition is a next state too (60_exceptions.md R233). -/
theorem exec_next (i : Instr) (s : State) : ∃ t, exec i s = .next t := by
  rcases exec_cases i s with ⟨-, -, h⟩ | ⟨_, -, h | h⟩ | ⟨-, h⟩ <;> exact ⟨_, h⟩

/-- A property that the signals of an instruction, the counters, the `PC` update, a jump and a raised condition keep
holds after the instruction. -/
theorem exec_induction (P : State → Prop) (i : Instr)
    (signal : ∀ sig ∈ signalSequence i, ∀ s t, P s → runSignal sig s = .ok t → P t)
    (tick : ∀ s, P s → P (tickOnce s)) (advance : ∀ s, P s → P (advancePc s))
    (jump : ∀ target s, argumentOf i = some target → P s → P (jumpTo target s))
    (raised : ∀ c s, P s → P (raiseCondition c s)) (s t : State) (hs : P s) (h : exec i s = .next t) : P t := by
  rcases exec_cases i s with ⟨-, -, h'⟩ | ⟨target, hi, h' | h'⟩ | ⟨-, h'⟩ <;> rw [h'] at h <;> cases h
  · exact runSignals_induction P _ signal tick advance raised s hs
  · refine tick _ (jump target s ?_ hs)
    rcases hi with rfl | rfl | rfl <;> rfl
  · exact tick _ (advance s hs)
  · exact raised .halted s hs

/-- The cases of a step (41_control_cycle.md R140): each says what was checked and what the next state is. -/
theorem step_cases (s t : State) (h : step s = .next t) :
    s.status = .running ∧
      ((s.par.limit ≤ s.icount ∧ t = raiseCondition .limitExceeded s) ∨
        (s.icount < s.par.limit ∧
          ((fetchWord s = none ∧ t = raiseCondition (.fault (.fetchRange s.pc)) s) ∨
            ∃ w, fetchWord s = some w ∧
              ((∃ r, decode w = .error r ∧ t = raiseCondition (.fault (.illegalInstruction s.pc)) s) ∨
                ∃ i, decode w = .ok i ∧ exec i (countInstruction s) = .next t)))) := by
  simp only [step] at h
  split at h
  · next hrun =>
    refine ⟨hrun, ?_⟩
    by_cases hlim : s.par.limit ≤ s.icount
    · simp only [limitReached, hlim, decide_true, if_true] at h
      cases h
      exact .inl ⟨hlim, rfl⟩
    · simp only [limitReached, hlim, decide_false, Bool.false_eq_true, if_false] at h
      refine .inr ⟨by omega, ?_⟩
      cases hf : fetchWord s with
      | none => rw [hf] at h; cases h; exact .inl ⟨rfl, rfl⟩
      | some w =>
        rw [hf] at h
        refine .inr ⟨w, rfl, ?_⟩
        cases hd : decode w with
        | error r => simp only [hd] at h; cases h; exact .inl ⟨r, rfl, rfl⟩
        | ok i => simp only [hd] at h; exact .inr ⟨i, rfl, h⟩
  · cases h

theorem run_succ_next (M : Host.Core) (k : Nat) (s t : M.State) (h : M.step s = .next t) :
    M.run (k + 1) s = M.run k t := by
  rw [Host.Core.run, h]

theorem run_succ_fault (M : Host.Core) (k : Nat) (s : M.State) (r : M.Fault) (h : M.step s = .fault r) :
    M.run (k + 1) s = .fault r := by
  rw [Host.Core.run, h]

/-- A run's first step, where there is one. -/
theorem core_run_succ (k : Nat) (s t : State) (h : step s = .next t) : core.run (k + 1) s = core.run k t :=
  run_succ_next core k s t h

/-- No run goes on from a terminal status (41_control_cycle.md R149). -/
theorem core_run_succ_terminal (k : Nat) (s : State) (h : s.status ≠ .running) :
    core.run (k + 1) s = .fault .noSuccessor :=
  run_succ_fault core k s .noSuccessor (if_neg h)

/-- A fetched word stands at a code address (41_control_cycle.md R142). -/
theorem fetchWord_eq_some (s : State) (w : Word40) :
    fetchWord s = some w ↔ 0 ≤ s.pc ∧ s.par.prog[s.pc.toNat]? = some w := by
  simp only [fetchWord]
  split <;> simp_all

theorem getElem?_placeWord (prog : List Word40) (n : Nat) (w : Word40) : (placeWord prog n w)[n]? = some w := by
  induction n generalizing prog with
  | zero => cases prog <;> simp [placeWord]
  | succ n ih => cases prog <;> simp [placeWord, ih]

/-- The step after `withFetchWord` runs exactly the instruction that the decoder reads from the word. -/
theorem step_withFetchWord (s : State) (nbits w : Nat) (i : Instr) (h : decodeTableWord nbits w = some i) :
    step (s.withFetchWord nbits w) = exec i (countInstruction (s.withFetchWord nbits w)) := by
  have hd : decode (tableWord nbits w) = .ok i := by
    simp only [decodeTableWord] at h
    split at h
    · next hd => cases h; exact hd
    · cases h
  have hf : fetchWord (s.withFetchWord nbits w) = some (tableWord nbits w) := by
    rw [fetchWord_eq_some]
    refine ⟨?_, getElem?_placeWord _ _ _⟩
    simp only [State.withFetchWord, fetchableCodeAddress]
    split
    · next h => exact h.1
    · exact Int.le_refl 0
  have hl : limitReached (s.withFetchWord nbits w) = false := by
    have h : ¬ max s.par.limit (s.icount + 1) ≤ s.icount := by omega
    exact decide_eq_false h
  simp only [step, hl, hf, hd, Bool.false_eq_true, if_false]
  rfl

end Sys2Proof.Machine
end

