-- ==== Sys2Proof/Tests/Slice0.lean ====
section
/-! SUPPORT. The model's own tests: the well-formedness smoke, the decoding of words written out from the spec, at most
two tests per instruction from the vectors of 95_test_vectors.md, and a witness for the hypotheses of every statement
that has some. -/

namespace Sys2Proof.Tests

open Sys2Proof.Machine Sys2Proof.Safety

/-! ### Well-formedness: an argument just outside the band, on every instruction that takes one (R83) -/

theorem test_mov_argument_refused :
    (Instr.mov 2147483648).wellFormed = false ∧ (Instr.mov (-2147483649)).wellFormed = false := by decide
theorem test_load_argument_refused :
    (Instr.load 2147483648).wellFormed = false ∧ (Instr.load (-2147483649)).wellFormed = false := by decide
theorem test_store_argument_refused :
    (Instr.store 2147483648).wellFormed = false ∧ (Instr.store (-2147483649)).wellFormed = false := by decide
theorem test_ld_argument_refused :
    (Instr.ld 2147483648).wellFormed = false ∧ (Instr.ld (-2147483649)).wellFormed = false := by decide
theorem test_st_argument_refused :
    (Instr.st 2147483648).wellFormed = false ∧ (Instr.st (-2147483649)).wellFormed = false := by decide
theorem test_add_argument_refused :
    (Instr.add 2147483648).wellFormed = false ∧ (Instr.add (-2147483649)).wellFormed = false := by decide
theorem test_sub_argument_refused :
    (Instr.sub 2147483648).wellFormed = false ∧ (Instr.sub (-2147483649)).wellFormed = false := by decide
theorem test_mul_argument_refused :
    (Instr.mul 2147483648).wellFormed = false ∧ (Instr.mul (-2147483649)).wellFormed = false := by decide
theorem test_div_argument_refused :
    (Instr.div 2147483648).wellFormed = false ∧ (Instr.div (-2147483649)).wellFormed = false := by decide
theorem test_mod_argument_refused :
    (Instr.mod 2147483648).wellFormed = false ∧ (Instr.mod (-2147483649)).wellFormed = false := by decide
theorem test_jmp_argument_refused :
    (Instr.jmp 2147483648).wellFormed = false ∧ (Instr.jmp (-2147483649)).wellFormed = false := by decide
theorem test_jz_argument_refused :
    (Instr.jz 2147483648).wellFormed = false ∧ (Instr.jz (-2147483649)).wellFormed = false := by decide
theorem test_jnz_argument_refused :
    (Instr.jnz 2147483648).wellFormed = false ∧ (Instr.jnz (-2147483649)).wellFormed = false := by decide

/-! ### Decoding: OPC (8 bits) and ARG (32 bits) written out from R84 to R87; vectors E1 to E17 -/

theorem test_decode_inc : decode (0b00000000#8 ++ 0b00000000000000000000000000000000#32) = .ok .inc := by decide
theorem test_decode_dec : decode (0b00000001#8 ++ 0b00000000000000000000000000000000#32) = .ok .dec := by decide
theorem test_decode_mov : decode (0b00000010#8 ++ 0b10000000000000000000000000000000#32) = .ok (.mov (-2147483648)) := by
  decide
theorem test_decode_load : decode (0b00000011#8 ++ 0b11111111111111111111111111111011#32) = .ok (.load (-5)) := by decide
theorem test_decode_store : decode (0b00000100#8 ++ 0b00000000000000000000000000001010#32) = .ok (.store 10) := by decide
theorem test_decode_ld : decode (0b00000101#8 ++ 0b00000000000000000000000000000010#32) = .ok (.ld 2) := by decide
theorem test_decode_st : decode (0b00000110#8 ++ 0b00000000000000000000000000000011#32) = .ok (.st 3) := by decide
theorem test_decode_add : decode (0b00000111#8 ++ 0b00000000000000000000000000000100#32) = .ok (.add 4) := by decide
theorem test_decode_sub : decode (0b00001000#8 ++ 0b00000000000000000000000000000100#32) = .ok (.sub 4) := by decide
theorem test_decode_mul : decode (0b00001001#8 ++ 0b00000000000000000000000000000010#32) = .ok (.mul 2) := by decide
theorem test_decode_div : decode (0b00001010#8 ++ 0b00000000000000000000000000000100#32) = .ok (.div 4) := by decide
theorem test_decode_mod : decode (0b00001011#8 ++ 0b00000000000000000000000000000100#32) = .ok (.mod 4) := by decide
theorem test_decode_jmp : decode (0b00001100#8 ++ 0b11111111111111111111111111111111#32) = .ok (.jmp (-1)) := by decide
theorem test_decode_jz : decode (0b00001101#8 ++ 0b00000000000000000000000000000111#32) = .ok (.jz 7) := by decide
theorem test_decode_jnz : decode (0b00001110#8 ++ 0b00000000000000000000000000000000#32) = .ok (.jnz 0) := by decide
theorem test_decode_halt : decode (0b00001111#8 ++ 0b00000000000000000000000000000000#32) = .ok .halt := by decide

/-- E13, E14 -/
theorem test_decode_illegal_opcode :
    decode 0x1000000000 = .error (.illegalOpcode 16) ∧ decode 0xFF00000000 = .error (.illegalOpcode 255) := by decide

/-- E15, E16 -/
theorem test_decode_stray_argument :
    decode 0x0F00000001 = .error (.strayArgument 15 1) ∧ decode 0x0000000001 = .error (.strayArgument 0 1) ∧
      decode 0x0180000000 = .error (.strayArgument 1 (-2147483648)) := by decide

/-- E1 to E4, E6, E8: the encoder -/
theorem test_encode :
    encode (.mov 5) = 0x0200000005 ∧ encode (.mov (-1)) = 0x02FFFFFFFF ∧ encode (.mov 2147483647) = 0x027FFFFFFF ∧
      encode .halt = 0x0F00000000 ∧ encode (.store 10) = 0x040000000A ∧ encode (.mod 4) = 0x0B00000004 := by decide

/-- E18 -/
theorem test_decode_records :
    decodeRecord ⟨0, "halt", some 3, none⟩ = .error (.strayArgument 15 3) ∧
      decodeRecord ⟨0, "load", none, none⟩ = .error (.missingArgument 3) ∧
      decodeRecord ⟨0, "nop", none, none⟩ = .error (.unknownMnemonic "nop") := by decide

/-- E19, E20 -/
theorem test_loader_refuses :
    loadRecords 0 [⟨1, "mov", some 5, none⟩] = .error (.recordIndexWrong 0) ∧
      loadRecords 0 [⟨0, "mov", some 2147483648, none⟩] = .error (.argumentOutsideBand 0) := by decide

/-! ### Instructions: the vectors of 95_test_vectors.md sections 2.2 to 2.5 -/

/-- A small machine at code address 3, with the vectors' memory size, cells, accumulator and input. -/
def machine (memSize : Nat) (mem : Memory) (acc : Int) (inq : List Int) : State where
  par := { Config.defaultParams with memSize := memSize, input := inq }
  acc := acc
  ar := 0
  mem := mem
  inq := inq
  outq := []
  pc := 3
  tick := 10
  icount := 4
  status := .running

/-- The same machine with a program and the `PC` at its start. -/
def machineWith (prog : List Word40) (acc : Int) : State :=
  { machine 8 [] acc [] with par := { Config.defaultParams with memSize := 8, prog := prog }, pc := 0 }

/-- The next state, where there is one. -/
def nextOf (o : Host.Outcome State Fault Refusal) : Option State :=
  match o with
  | .next t => some t
  | .fault _ => none
  | .refused _ => none

/-- K2 -/
theorem test_inc_wraps :
    nextOf (exec .inc (machine 8 [] 2147483647 [])) =
      some { machine 8 [] (-2147483648) [] with tick := 11, pc := 4 } := by decide
/-- K5 -/
theorem test_dec_wraps :
    nextOf (exec .dec (machine 8 [] (-2147483648) [])) =
      some { machine 8 [] 2147483647 [] with tick := 11, pc := 4 } := by decide
/-- K8 -/
theorem test_mov_smallest :
    nextOf (exec (.mov (-2147483648)) (machine 8 [] 1 [])) =
      some { machine 8 [] (-2147483648) [] with tick := 11, pc := 4 } := by decide
/-- M2 -/
theorem test_load_input_port :
    nextOf (exec (.load 0) (machine 8 [(0, 55)] 0 [104, 105])) =
      some { machine 8 [(0, 55)] 0 [104, 105] with acc := 104, inq := [105], tick := 12, pc := 4 } := by decide
/-- M3 -/
theorem test_load_cell_one :
    nextOf (exec (.load 1) (machine 8 [(1, 7)] 9 [])) =
      some { machine 8 [(1, 7)] 7 [] with ar := 1, tick := 12, pc := 4 } := by decide
/-- M5 -/
theorem test_store_output_port :
    nextOf (exec (.store 1) (machine 8 [(1, 7)] 72 [])) =
      some { machine 8 [(1, 7)] 72 [] with ar := 1, outq := [72], tick := 12, pc := 4 } := by decide
/-- M6 -/
theorem test_store_cell_zero :
    nextOf (exec (.store 0) (machine 8 [] 9 [65])) =
      some { machine 8 [(0, 9)] 9 [65] with tick := 12, pc := 4 } := by decide
/-- M13 -/
theorem test_ld_pointer_at_zero_is_raw :
    nextOf (exec (.ld 0) (machine 4 [(0, 3), (3, 77)] 0 [65])) =
      some { machine 4 [(0, 3), (3, 77)] 77 [65] with ar := 3, tick := 13, pc := 4 } := by decide
/-- M21 -/
theorem test_ld_bad_pointer :
    nextOf (exec (.ld 2) (machine 4 [(2, -1)] 0 [])) =
      some { machine 4 [(2, -1)] 0 [] with ar := 2, tick := 11, status := .faulted (.addressRange (-1)) } := by decide
/-- M8 -/
theorem test_st_cell :
    nextOf (exec (.st 2) (machine 8 [(2, 6)] 9 [])) =
      some { machine 8 [(2, 6), (6, 9)] 9 [] with ar := 6, tick := 13, pc := 4 } := by decide
/-- M17 -/
theorem test_st_output_port :
    nextOf (exec (.st 3) (machine 8 [(3, 1)] 72 [])) =
      some { machine 8 [(3, 1)] 72 [] with ar := 1, outq := [72], tick := 13, pc := 4 } := by decide
/-- T5 -/
theorem test_add_wraps :
    nextOf (exec (.add 2) (machine 4 [(2, -2147483648)] (-2147483648) [])) =
      some { machine 4 [(2, -2147483648)] 0 [] with ar := 2, tick := 12, pc := 4 } := by decide
/-- T49 -/
theorem test_add_port_zero_is_raw :
    nextOf (exec (.add 0) (machine 4 [(0, 41)] 1 [65])) =
      some { machine 4 [(0, 41)] 42 [65] with tick := 12, pc := 4 } := by decide
/-- T7 -/
theorem test_sub_order :
    nextOf (exec (.sub 2) (machine 4 [(2, 7)] 5 [])) =
      some { machine 4 [(2, 7)] (-2) [] with ar := 2, tick := 12, pc := 4 } := by decide
/-- T11 -/
theorem test_sub_wraps :
    nextOf (exec (.sub 2) (machine 4 [(2, 2147483647)] (-2147483648) [])) =
      some { machine 4 [(2, 2147483647)] 1 [] with ar := 2, tick := 12, pc := 4 } := by decide
/-- T16 -/
theorem test_mul_wraps :
    nextOf (exec (.mul 2) (machine 4 [(2, 46341)] 46341 [])) =
      some { machine 4 [(2, 46341)] (-2147479015) [] with ar := 2, tick := 12, pc := 4 } := by decide
/-- T22 and the settings of R120: wrap, saturate, fault -/
theorem test_mul_beyond_one_band :
    corr .wrap (65536 * 98304) = .ok (-2147483648) ∧ corr .saturate (65536 * 98304) = .ok 2147483647 ∧
      corr .fault (65536 * 98304) = .error (.fault .arithmeticOverflow) := by decide
/-- T28 -/
theorem test_div_floors :
    nextOf (exec (.div 2) (machine 4 [(2, 2)] (-7) [])) =
      some { machine 4 [(2, 2)] (-4) [] with ar := 2, tick := 12, pc := 4 } := by decide
/-- T34 -/
theorem test_div_corner :
    nextOf (exec (.div 2) (machine 4 [(2, -1)] (-2147483648) [])) =
      some { machine 4 [(2, -1)] (-2147483648) [] with ar := 2, tick := 12, pc := 4 } := by decide
/-- T39 -/
theorem test_mod_sign_of_divisor :
    nextOf (exec (.mod 2) (machine 4 [(2, -2)] 7 [])) =
      some { machine 4 [(2, -2)] (-1) [] with ar := 2, tick := 12, pc := 4 } := by decide
/-- T48 -/
theorem test_mod_by_zero :
    nextOf (exec (.mod 2) (machine 4 [] 7 [])) =
      some { machine 4 [] 7 [] with ar := 2, tick := 11, status := .faulted .divideByZero } := by decide
/-- J6 -/
theorem test_jmp_to_itself :
    nextOf (exec (.jmp 3) (machine 8 [] 5 [])) = some { machine 8 [] 5 [] with tick := 11 } := by decide
/-- J1 -/
theorem test_jz_taken :
    nextOf (exec (.jz 7) (machine 8 [] 0 [])) = some { machine 8 [] 0 [] with tick := 11, pc := 7 } := by decide
/-- J2 -/
theorem test_jz_not_taken :
    nextOf (exec (.jz 7) (machine 8 [] 5 [])) = some { machine 8 [] 5 [] with tick := 11, pc := 4 } := by decide
/-- J3 -/
theorem test_jnz_taken :
    nextOf (exec (.jnz 7) (machine 8 [] 5 [])) = some { machine 8 [] 5 [] with tick := 11, pc := 7 } := by decide
/-- J4 -/
theorem test_jnz_not_taken :
    nextOf (exec (.jnz 7) (machine 8 [] 0 [])) = some { machine 8 [] 0 [] with tick := 11, pc := 4 } := by decide
/-- J7, as a step -/
theorem test_halt_counts :
    nextOf (step (machineWith [0x0F00000000] 5)) =
      some { machineWith [0x0F00000000] 5 with icount := 5, status := .halted } := by decide

/-! ### Steps that end a run before an instruction (X1, X4, X9, X11) -/

theorem test_empty_program :
    nextOf (step (machineWith [] 0)) = some { machineWith [] 0 with status := .faulted (.fetchRange 0) } := by decide
theorem test_illegal_word :
    nextOf (step (machineWith [0x0F00000003] 0)) =
      some { machineWith [0x0F00000003] 0 with status := .faulted (.illegalInstruction 0) } := by decide
/-- X10: the limit is checked before the fetch and the decode. -/
theorem test_limit_first :
    nextOf (step { machineWith [0x1000000000] 1 with icount := 1000 }) =
      some { machineWith [0x1000000000] 1 with icount := 1000, status := .limitExceeded } := by decide

/-! ### Reset (Z1, Z5 to Z9) -/

/-- The parameters of Z1. -/
def z1 : Params :=
  { Config.defaultParams with memSize := 5, dataImage := [4, 5, 6], input := [97, 98], limit := 10 }

theorem test_boot_z1 :
    boot z1 = .ok { State.reset with par := z1, mem := [(0, 4), (1, 5), (2, 6)], inq := [97, 98] } := by decide

theorem test_boot_refuses :
    boot { z1 with memSize := 0 } = .error .memSizeNotPositive ∧
      boot { z1 with limit := 0 } = .error .limitNotPositive ∧
      boot { z1 with memSize := 2 } = .error .imageTooLong ∧
      boot { z1 with dataImage := [0, 0, 4294967296] } = .error .imageValueOutsideBand ∧
      boot { z1 with input := [-1] } = .error .tokenOutOfRange ∧
      boot { z1 with input := [1114112] } = .error .tokenOutOfRange := by decide

/-- The host's placement of a word is what the next step runs. -/
theorem test_withFetchWord :
    nextOf (step (State.reset.withFetchWord 40 0x0200000005)) =
      some { State.reset.withFetchWord 40 0x0200000005 with acc := 5, pc := 1, tick := 1, icount := 1 } := by decide

/-! ### Witnesses: for every statement with hypotheses, states and operands that meet them, clause by clause, at the
ends of each clause's range -/

theorem witness_DecodeOfEncode :
    (Instr.mov (-2147483648)).wellFormed = true ∧ (Instr.jmp 2147483647).wellFormed = true ∧
      Instr.halt.wellFormed = true := by decide

theorem witness_EncodeOfDecode : decode 0x03FFFFFFFB = .ok (.load (-5)) ∧ decode 0x0F00000000 = .ok .halt := by decide

theorem witness_EveryWordIsLegalOrRejectedByName :
    16 ≤ opcField 0x1000000000 ∧ 16 ≤ opcField 0xFFFFFFFFFF ∧
    (opcField 0x0F00000001 = 0x0F ∧ argField 0x0F00000001 ≠ 0#32) ∧
    (opcField 0x0180000000 = 0x01 ∧ argField 0x0180000000 ≠ 0#32) ∧
    (opcField 0x0F00000000 = 0x0F ∧ argField 0x0F00000000 = 0#32) ∧ opcField 0x0EFFFFFFFF = 0x0E := by decide

theorem witness_RecordAndWordDecodeAlike :
    (∀ a ∈ (⟨0, "mov", some (-2147483648), none⟩ : Record).arg, InBand a) ∧
      ∀ a ∈ (⟨3, "nop", none, some (1, "nop")⟩ : Record).arg, InBand a := by decide

theorem witness_LoaderAcceptsExactly :
    loadRecords 0 [⟨0, "mov", some 5, none⟩, ⟨1, "nop", none, none⟩] = .ok [0x0200000005, illegalWord] := by decide

theorem witness_BootBuildsTheFirstState :
    boot z1 = .ok (resetState z1) ∧ z1.dataImage[2]? = some 6 ∧ z1.dataImage.length ≤ 3 := by decide

theorem witness_BootMeetsTheInvariant : boot z1 = .ok (resetState z1) := by decide

/-- A state that is not the reset state and whose next step adds. -/
def adding : State :=
  { machineWith [0x0700000002] 7 with mem := [(2, 5)] }

theorem step_adding : step adding = .next { adding with ar := 2, acc := 12, tick := 12, icount := 5, pc := 1 } := rfl

theorem witness_StepKeepsTheInvariant :
    Inv adding ∧ step adding = .next { adding with ar := 2, acc := 12, tick := 12, icount := 5, pc := 1 } :=
  ⟨{ params := by decide
     acc := by decide
     ar := by decide
     memForm := by decide
     cells := fun a => by
       simp only [readCell, adding, Memory.read]
       split <;> decide
     inputLeft := by decide
     outputCodes := by decide
     pc := by decide
     icount := by decide
     tick := by decide
     portCell := by decide
     overflow := by decide }, rfl⟩

theorem witness_StepRunsTheDecodedInstruction :
    adding.status = .running ∧ adding.icount < adding.par.limit ∧ 0 ≤ adding.pc ∧
      adding.par.prog[adding.pc.toNat]? = some 0x0700000002 ∧ decode 0x0700000002 = .ok (.add 2) := by decide

theorem witness_ChecksBeforeTheInstruction :
    (machineWith [] 0).status = .running ∧
    ({ adding with icount := 1000 }.par.limit ≤ { adding with icount := 1000 }.icount) ∧
    (({ adding with icount := 999 }.icount < adding.par.limit) ∧ { adding with pc := -1 }.pc < 0 ∧
      (adding.par.prog.length : Int) ≤ { adding with pc := 1 }.pc) ∧
    ((machineWith [0x1000000000] 0).par.prog[(machineWith [0x1000000000] 0).pc.toNat]? = some 0x1000000000 ∧
      decode 0x1000000000 = .error (.illegalOpcode 16)) := by decide

theorem witness_OnlyRunningStatesHaveAStep :
    adding.status = .running ∧ { adding with status := .faulted .divideByZero }.status ≠ .running := by decide

theorem witness_NoStepChangesTheProgram :
    step adding = .next { adding with ar := 2, acc := 12, tick := 12, icount := 5, pc := 1 } := rfl

/-- A step that writes a character and one that takes a token. -/
theorem witness_QueuesAndCountersMoveOneWay :
    (nextOf (step { machineWith [0x0400000001] 72 with outq := [104] })).map (·.outq) = some [104, 72] ∧
    (nextOf (step { machineWith [0x0300000000] 72 with inq := [104, 105] })).map (·.inq) = some [105] := by decide

theorem witness_EveryRunEnds :
    adding.status = .running ∧ { adding with icount := 1000 }.icount ≤ adding.par.limit := by decide

theorem witness_TicksOfAHaltedRun :
    (machineWith [0x0200000005, 0x0F00000000] 0).status = .running ∧
    core.run 2 (machineWith [0x0200000005, 0x0F00000000] 0) =
      .next { machineWith [0x0200000005, 0x0F00000000] 5 with pc := 1, tick := 11, icount := 6, status := .halted } :=
  ⟨rfl, rfl⟩

theorem witness_DispatchFollowsTheClassTable :
    adding.status = .running ∧ opClass .halt = .halt ∧
    (opClass (.st 2) ≠ .halt ∧ opClass (.st 2) ≠ .unconditionalJump ∧ opClass (.st 2) ≠ .conditionalJump) ∧
    { adding with ar := 2, acc := 12, tick := 12, pc := 1 }.status = .running ∧
    exec (.add 2) adding = .next { adding with ar := 2, acc := 12, tick := 12, pc := 1 } := by
  refine ⟨by decide, by decide, by decide, by decide, rfl⟩

/-- One condition at the first signal, one at the last, and `halt` (M19, M15, J7). -/
theorem witness_ConditionsArePrecise :
    exec (.load 8) adding = .next { adding with status := .faulted (.addressRange 8) } ∧
    exec (.ld 3) adding = .next { adding with ar := 0, tick := 12, status := .inputExhausted } ∧
    exec .halt adding = .next { adding with status := .halted } ∧ adding.status = .running ∧
    ({ adding with status := .inputExhausted }).status ≠ .running := ⟨rfl, rfl, rfl, rfl, by decide⟩

theorem witness_TickInfluencesNothing :
    step adding = .next { adding with ar := 2, acc := 12, tick := 12, icount := 5, pc := 1 } := rfl

theorem witness_OutputIsNeverRead :
    step { machineWith [0x0400000001] 72 with outq := [104] } =
      .next { machineWith [0x0400000001] 72 with ar := 1, outq := [104, 72], tick := 12, icount := 5, pc := 1 } := rfl

theorem witness_CorrectionStep :
    OneStep (-6442450944) ∧ OneStep 6442450943 ∧ ¬ OneStep (-6442450945) ∧ ¬ OneStep 6442450944 ∧
    (2147483647 : Int) < 2147483648 ∧ (-2147483649 : Int) < -2147483648 ∧ InBand (-2147483648) ∧
    corr adding.par.ovfPolicy (noArgRaw .inc adding.acc) = .ok 8 ∧
    (argRaw .add adding.acc (readCell adding adding.ar) = .ok 7 ∧ corr adding.par.ovfPolicy 7 = .ok 7) ∧
    { adding with ar := 1 }.ar ≠ 0 := by decide

theorem witness_WrapIsTheBandRepresentative :
    InBand (-2147483648) ∧ (-2147483648 : Int) = 2147483648 + -1 * 4294967296 := by decide

theorem witness_OnlyMulLeavesTheOneStepInterval :
    InBand (-2147483648) ∧ InBand 2147483647 ∧ (-2147483648 : Int) ≠ 0 ∧ ArgOp.sub ≠ .mul ∧
      argRaw .sub (-2147483648) 2147483647 = .ok (-4294967295) := by decide

theorem witness_LatchAddressChecksTheRange :
    (0 ≤ (0 : Int) ∧ 0 < (adding.par.memSize : Int)) ∧ (0 ≤ (7 : Int) ∧ 7 < (adding.par.memSize : Int)) ∧
    ¬ (0 ≤ (-1 : Int) ∧ -1 < (adding.par.memSize : Int)) ∧
    ¬ (0 ≤ (8 : Int) ∧ 8 < (adding.par.memSize : Int)) ∧
    signalSequence (.st 8) = .latchAddress 8 :: [.addressByAddress, .write] := by decide

theorem witness_LatchAccumulatorReadsPortOrCell :
    (machine 8 [] 0 [104, 105]).ar = 0 ∧ (machine 8 [] 0 [104, 105]).inq = 104 :: [105] ∧
    (machine 8 [] 0 []).inq = [] ∧ { adding with ar := 1 }.ar ≠ 0 := by decide

theorem witness_PortsAreSeenByTwoSignalsOnly :
    ((machine 8 [] 0 [104, 105]).ar = 0 ∧ (machine 8 [] 0 [104, 105]).inq = 104 :: [105]) ∧
    { adding with ar := 1 }.ar ≠ 0 ∧
    ({ machine 8 [] 0 [] with ar := 1 }.ar = 1 ∧ 0 ≤ (machine 8 [] 0 []).acc ∧
      (machine 8 [] 1114111 []).acc ≤ ((machine 8 [] 1114111 []).par.charMax : Int)) ∧
    adding.ar ≠ 1 ∧
    argResult adding.par.ovfPolicy .add adding.acc (readCell adding adding.ar) = .ok 7 ∧
    (0 ≤ readCell { adding with ar := 2 } 2 ∧ readCell { adding with ar := 2 } 2 < (adding.par.memSize : Int)) ∧
    (nextOf (exec (.ld 3) (machine 8 [] 0 [65]))).map (·.inq) = some [] ∧
    (nextOf (exec (.store 1) (machine 8 [] 65 []))).map (·.outq) = some [65] := by decide

theorem witness_PortCellOneIsNeverWritten :
    exec (.store 1) (machine 8 [(1, 7)] 72 []) =
      .next { machine 8 [(1, 7)] 72 [] with ar := 1, outq := [72], tick := 12, pc := 4 } := rfl

/-- T23 with `OVF_POLICY = fault`. -/
theorem witness_OverflowIsMulUnderFaultPolicy :
    let s : State := { machine 4 [(2, 100000)] 100000 [] with
      par := { Config.defaultParams with memSize := 4, ovfPolicy := .fault } }
    s.status = .running ∧ InBand s.acc ∧ (∀ a : Nat, InBand (readCell s a)) ∧
      exec (.mul 2) s = .next { s with ar := 2, tick := 11, status := .faulted .arithmeticOverflow } := by
  refine ⟨rfl, by decide, fun a => ?_, rfl⟩
  simp only [readCell, machine, Memory.read]
  split <;> decide

theorem witness_IncDecResults :
    InBand (machine 8 [] 2147483647 []).acc ∧ InBand (machine 8 [] (-2147483648) []).acc := by decide

theorem witness_LoadResults :
    ¬ (0 ≤ (-1 : Int) ∧ -1 < (adding.par.memSize : Int)) ∧
    ¬ (0 ≤ (8 : Int) ∧ 8 < (adding.par.memSize : Int)) ∧
    (0 < (1 : Int) ∧ 1 < (adding.par.memSize : Int)) ∧ (0 < (7 : Int) ∧ 7 < (adding.par.memSize : Int)) ∧
    (0 < (machine 1 [] 0 [104]).par.memSize ∧ (machine 1 [] 0 [104]).inq = 104 :: []) ∧
    (machine 1 [] 0 []).inq = [] := by decide

theorem witness_StoreResults :
    ¬ (0 ≤ (-1 : Int) ∧ -1 < (adding.par.memSize : Int)) ∧
    ¬ (0 ≤ (8 : Int) ∧ 8 < (adding.par.memSize : Int)) ∧
    ((0 : Int) ≠ 1 ∧ (7 : Int) < (adding.par.memSize : Int) ∧
      Memory.wf adding.par.memFill adding.par.memSize adding.mem) ∧
    (1 < (machine 2 [] 0 []).par.memSize ∧ 0 ≤ (machine 2 [] 0 []).acc ∧
      (machine 2 [] 1114111 []).acc ≤ ((machine 2 [] 1114111 []).par.charMax : Int)) ∧
    ((machine 2 [] (-1) []).acc < 0 ∧
      ((machine 2 [] 1114112 []).par.charMax : Int) < (machine 2 [] 1114112 []).acc) := by decide

/-- A machine whose cell 2 holds the pointer `p`. -/
def pointing (p : Int) (acc : Int) (inq : List Int) : State := machine 8 [(2, p)] acc inq

theorem witness_LdResults :
    ¬ (0 ≤ (-1 : Int) ∧ -1 < (adding.par.memSize : Int)) ∧
    (0 ≤ (2 : Int) ∧ 2 < ((pointing 0 0 []).par.memSize : Int)) ∧
    (readCell (pointing (-1) 0 []) 2 = -1 ∧ ¬ (0 ≤ (-1 : Int) ∧ -1 < ((pointing (-1) 0 []).par.memSize : Int))) ∧
    (readCell (pointing 8 0 []) 2 = 8 ∧ ¬ (0 ≤ (8 : Int) ∧ 8 < ((pointing 8 0 []).par.memSize : Int))) ∧
    (readCell (pointing 1 0 []) 2 = 1 ∧ (1 : Int) < ((pointing 1 0 []).par.memSize : Int)) ∧
    (readCell (pointing 7 0 []) 2 = 7 ∧ (7 : Int) < ((pointing 7 0 []).par.memSize : Int)) ∧
    (readCell (pointing 1 0 [65]) 3 = 0 ∧ (pointing 1 0 [65]).inq = 65 :: []) ∧
    (readCell (pointing 1 0 []) 3 = 0 ∧ (pointing 1 0 []).inq = []) := by decide

theorem witness_StResults :
    ¬ (0 ≤ (8 : Int) ∧ 8 < (adding.par.memSize : Int)) ∧
    (0 ≤ (2 : Int) ∧ 2 < ((pointing 0 0 []).par.memSize : Int)) ∧
    (readCell (pointing (-1) 0 []) 2 = -1 ∧ ¬ (0 ≤ (-1 : Int) ∧ -1 < ((pointing (-1) 0 []).par.memSize : Int))) ∧
    (readCell (pointing 2 0 []) 2 = 2 ∧ Memory.wf 0 8 (pointing 2 0 []).mem) ∧
    (readCell (pointing 7 0 []) 3 = 0 ∧ (0 : Int) ≠ 1 ∧ Memory.wf 0 8 (pointing 7 0 []).mem) ∧
    (readCell (pointing 1 0 []) 2 = 1 ∧ 0 ≤ (pointing 1 0 []).acc ∧
      (pointing 1 1114111 []).acc ≤ ((pointing 1 1114111 []).par.charMax : Int)) ∧
    ((pointing 1 (-1) []).acc < 0 ∧
      ((pointing 1 1114112 []).par.charMax : Int) < (pointing 1 1114112 []).acc) := by decide

theorem witness_AddSubResults :
    (0 ≤ (7 : Int) ∧ 7 < (adding.par.memSize : Int) ∧ InBand adding.acc ∧ InBand (readCell adding 7)) ∧
    (InBand (pointing (-2147483648) 2147483647 []).acc ∧ InBand (readCell (pointing (-2147483648) 2147483647 []) 2)) ∧
    ¬ (0 ≤ (8 : Int) ∧ 8 < (adding.par.memSize : Int)) := by decide

theorem witness_MulResults :
    ¬ (0 ≤ (8 : Int) ∧ 8 < (adding.par.memSize : Int)) ∧
    (0 ≤ (2 : Int) ∧ 2 < ((pointing 0 0 []).par.memSize : Int)) ∧
    (OneStep ((pointing 98304 (-65536) []).acc * readCell (pointing 98304 (-65536) []) 2) ∧
      ¬ OneStep ((pointing 98304 65536 []).acc * readCell (pointing 98304 65536 []) 2)) ∧
    (pointing 98304 65536 []).par.ovfPolicy = .wrap ∧
    { Config.defaultParams with ovfPolicy := .saturate }.ovfPolicy = .saturate ∧
    { Config.defaultParams with ovfPolicy := .fault }.ovfPolicy = .fault := by decide

theorem witness_DivModResults :
    readCell (pointing (-1) (-2147483648) []) 2 = -1 ∧ (-1 : Int) ≠ 0 ∧
    InBand (pointing (-1) (-2147483648) []).acc ∧ InBand (-1) ∧
    (2 : Int) < ((pointing (-1) (-2147483648) []).par.memSize : Int) := by decide

theorem witness_DivModFaults :
    (0 ≤ (7 : Int) ∧ 7 < (adding.par.memSize : Int) ∧ readCell adding 7 = 0) ∧
    ¬ (0 ≤ (8 : Int) ∧ 8 < (adding.par.memSize : Int)) := by decide

theorem witness_OperandOrder :
    let s := pointing 2 (-7) []
    let t (v : Int) : State := { s with ar := 2, acc := v, tick := 12, pc := 4 }
    s.status = .running ∧ (t 0).status = .running ∧ readCell s 2 = 2 ∧ exec (.add 2) s = .next (t (-5)) ∧
      exec (.sub 2) s = .next (t (-9)) ∧ exec (.mul 2) s = .next (t (-14)) ∧ exec (.div 2) s = .next (t (-4)) ∧
      exec (.mod 2) s = .next (t 1) := ⟨rfl, rfl, rfl, rfl, rfl, rfl, rfl, rfl⟩

/-- A `jz` taken to -1, a `jnz` not taken, and an `add` that runs past the last instruction. -/
theorem witness_ProgramCounterUpdate :
    let taken : State := { adding with acc := 0 }
    let past : State := { adding with ar := 2, acc := 12, tick := 12, pc := 1 }
    (taken.status = .running ∧ taken.icount < taken.par.limit ∧ taken.acc = 0 ∧ (-1 : Int) < 0 ∧
      exec (.jz (-1)) taken = .next { taken with pc := -1, tick := 11 }) ∧
    (adding.acc ≠ 0 ∧ exec (.jnz 1) adding = .next { adding with pc := 1, tick := 11 } ∧
      (adding.par.prog.length : Int) ≤ 1) ∧
    exec (.jnz 7) taken = .next { taken with pc := 1, tick := 11 } ∧
    ((∀ target, Instr.add 2 ≠ .jmp target ∧ Instr.add 2 ≠ .jz target ∧ Instr.add 2 ≠ .jnz target) ∧
      exec (.add 2) adding = .next past ∧ past.status = .running ∧ (adding.par.prog.length : Int) ≤ past.pc) :=
  ⟨⟨rfl, by decide, rfl, by decide, rfl⟩, ⟨by decide, rfl, by decide⟩, rfl,
    fun _ => ⟨nofun, nofun, nofun⟩, rfl, rfl, by decide⟩

theorem witness_HaltStep :
    (machineWith [0x0F00000000] 5).status = .running ∧ (machineWith [0x0F00000000] 5).icount < 1000 ∧
    0 ≤ (machineWith [0x0F00000000] 5).pc ∧
    (machineWith [0x0F00000000] 5).par.prog[(machineWith [0x0F00000000] 5).pc.toNat]? = some (encode .halt) := by decide

theorem witness_RegisterOnlyFrame :
    signalSequence (.jz 7) = [] ∧ exec (.jz 7) adding = .next { adding with tick := 11, pc := 1 } ∧
    exec .inc adding = .next { adding with acc := 8, tick := 11, pc := 1 } ∧ opClass (.jz 7) = .conditionalJump :=
  ⟨rfl, rfl, rfl, rfl⟩

theorem witness_LoadingFrame :
    exec (.load 2) adding = .next { adding with ar := 2, acc := 5, tick := 12, pc := 1 } ∧
    directAddress adding 2 ≠ some 0 ∧
    exec (.ld 2) adding = .next { adding with ar := 5, acc := 0, tick := 13, pc := 1 } ∧
    indirectAddress adding 2 ≠ some 0 := ⟨rfl, by decide, rfl, by decide⟩

theorem witness_StoringFrame :
    (exec (.store 3) adding = .next { adding with ar := 3, mem := [(2, 5), (3, 7)], tick := 12, pc := 1 } ∧
      directAddress adding 3 = some 3) ∧
    (exec (.st 2) adding = .next { adding with ar := 5, mem := [(2, 5), (5, 7)], tick := 13, pc := 1 } ∧
      indirectAddress adding 2 = some 5) ∧
    directAddress adding 1 = some 1 ∧ directAddress adding 8 = none := ⟨⟨rfl, rfl⟩, ⟨rfl, rfl⟩, rfl, rfl⟩

theorem witness_ArithmeticFrame :
    opClass (.mod 2) = .arithmeticWithOperand ∧
    exec (.mod 2) adding = .next { adding with ar := 2, acc := 2, tick := 12, pc := 1 } := ⟨rfl, rfl⟩

/-- The `load` starts in a state where `ACC` holds another value. -/
theorem witness_DirectRoundTrip :
    let t : State := { adding with ar := 7, mem := [(2, 5), (7, 7)], tick := 12, pc := 1 }
    let m : State := { t with acc := -1, pc := 2 }
    Memory.wf adding.par.memFill adding.par.memSize adding.mem ∧ (2 : Int) ≤ 2 ∧
    (7 : Int) < (adding.par.memSize : Int) ∧ exec (.store 7) adding = .next t ∧ m.par = adding.par ∧
    readCell m 7 = readCell t 7 ∧ m.acc ≠ adding.acc :=
  ⟨by decide, by decide, by decide, rfl, rfl, rfl, by decide⟩

/-- M9, M10, M11, M12: a pointer to a cell, to the output port, to the input port and to itself. -/
theorem witness_IndirectRoundTrip :
    let s := pointing 5 42 []
    let t : State := { s with ar := 5, mem := [(2, 5), (5, 42)], tick := 13, pc := 4 }
    let m : State := { t with acc := -1, pc := 7 }
    ((0 ≤ (2 : Int) ∧ 2 < (s.par.memSize : Int)) ∧ Memory.wf s.par.memFill s.par.memSize s.mem ∧ readCell s 2 = 5 ∧
      (5 : Int) ≠ 2 ∧ exec (.st 2) s = .next t ∧ m.par = s.par ∧ readCell m 2 = readCell t 2 ∧
      readCell m 5 = readCell t 5 ∧ m.acc ≠ s.acc) ∧
    (readCell (pointing 1 1114111 []) 2 = 1 ∧
      (pointing 1 1114111 []).acc ≤ ((pointing 1 1114111 []).par.charMax : Int)) ∧
    (readCell (pointing 5 42 [65]) 3 = 0 ∧ (pointing 5 42 [65]).inq = 65 :: []) ∧
    (readCell (pointing 2 7 []) 2 = 2 ∧ 0 < (pointing 2 7 []).acc ∧
      (pointing 2 7 []).acc < ((pointing 2 7 []).par.memSize : Int)) ∧
    (readCell (pointing 2 (-3) []) 2 = 2 ∧
      ¬ (0 ≤ (pointing 2 (-3) []).acc ∧ (pointing 2 (-3) []).acc < ((pointing 2 (-3) []).par.memSize : Int))) :=
  ⟨⟨by decide, by decide, rfl, by decide, rfl, rfl, rfl, rfl, by decide⟩, by decide, by decide, by decide, by decide⟩

end Sys2Proof.Tests
end

section
/-! PROOFS. The laws the proofs below share: the accepted parameters, the argument of a decoded instruction, the control
state after an instruction, and the frames of the memory instructions in terms of their effective address. -/

namespace Sys2Proof.Machine

/-- The conditions of 70_reset_and_hazards.md R255, and of R7 and R35 (log 15), that `parameterRefusal` checks. -/
theorem parameterRefusal_eq_none (p : Params) :
    parameterRefusal p = none ↔
      0 < p.memSize ∧ p.memSize ≤ 2147483648 ∧ 0 < p.limit ∧ p.prog.length ≤ 2147483647 ∧
        p.dataImage.length ≤ p.memSize ∧ (∀ v ∈ p.dataImage, InBand v) ∧
        (∀ c ∈ p.input, 0 ≤ c ∧ c ≤ (p.charMax : Int)) ∧ p.charMax ≤ 2147483647 ∧ InBand p.accReset ∧
        p.arReset < p.memSize ∧ InBand p.memFill := by
  simp only [parameterRefusal, ite_eq_iff, reduceCtorEq, and_false, false_or, and_true, not_lt, not_le, not_not,
    ← Nat.pos_iff_ne_zero]

theorem boot_eq_ok (p : Params) (s : State) : boot p = .ok s ↔ parameterRefusal p = none ∧ s = resetState p := by
  simp only [boot]
  cases parameterRefusal p <;> simp [eq_comm]

/-- A decoded argument is the word's sign-extended field (30_encoding.md R87, R94). -/
theorem decode_argument (w : Word40) (i : Instr) (h : decode w = .ok i) :
    ∀ a ∈ argumentOf i, a = sext32 (argField w) := by
  have noArgument : ∀ (j : Instr) (opc : Nat) (arg : Int), argumentOf j = none →
      withoutArgument j opc arg = .ok i → argumentOf i = none := fun j opc arg hj hi => by
    simp only [withoutArgument] at hi
    split at hi <;> cases hi
    exact hj
  simp only [decode] at h
  split at h
  case h_1 | h_2 | h_16 => simp [noArgument _ _ _ rfl h]
  case h_17 => cases h
  all_goals cases h; simp [argumentOf]

/-- A decoded argument is in `INT32` (30_encoding.md R83). -/
theorem decode_argument_inBand (w : Word40) (i : Instr) (h : decode w = .ok i) : ∀ a ∈ argumentOf i, InBand a :=
  fun a ha => decode_argument w i h a ha ▸ Laws.sext32_inBand _

theorem OpClass.ticks_le_three (c : OpClass) : c.ticks ≤ 3 := by cases c <;> decide

/-- An instruction that issues signals is the run of its sequence (41_control_cycle.md R143, R144). -/
theorem exec_of_signalSequence (i : Instr) (s : State) (h : signalSequence i ≠ []) :
    exec i s = .next (runSignals (signalSequence i) s) := by
  rcases exec_cases i s with ⟨-, -, h'⟩ | ⟨target, rfl | rfl | rfl, -⟩ | ⟨rfl, -⟩
  · exact h'
  all_goals exact absurd rfl h

/-- What an instruction does to the control state: at most three ticks, no count, and a `PC` that stays, advances or
becomes the argument (41_control_cycle.md R143, R145). -/
theorem exec_control (i : Instr) (s t : State) (h : exec i s = .next t) :
    t.par = s.par ∧ t.icount = s.icount ∧ s.tick ≤ t.tick ∧ t.tick ≤ s.tick + 3 ∧
      (t.pc = s.pc ∨ t.pc = s.pc + 1 ∨ argumentOf i = some t.pc) := by
  rcases exec_cases i s with ⟨-, hlen, h'⟩ | ⟨target, hi, h' | h'⟩ | ⟨-, h'⟩ <;> rw [h'] at h <;> cases h
  · have hthree := (opClass i).ticks_le_three
    obtain ⟨hpar, hic, ⟨-, hpc, htick⟩ | ⟨c, -, hpc, hlow, hhigh⟩⟩ := runSignals_control (signalSequence i) s
    · exact ⟨hpar, hic, by omega, by omega, .inr (.inl hpc)⟩
    · exact ⟨hpar, hic, by omega, by omega, .inl hpc⟩
  · refine ⟨rfl, rfl, by simp, by simp, .inr (.inr ?_)⟩
    rcases hi with rfl | rfl | rfl <;> rfl
  · exact ⟨rfl, rfl, by simp, by simp, .inr (.inl rfl)⟩
  · exact ⟨rfl, rfl, by simp, by simp, .inl rfl⟩

/-- `ea` is the address an instruction's last signal works at: its argument, or the value of the pointer its argument
names (44_memory_access.md, "`EA = arg`", "`EA = MEM[arg]`"). -/
def AccessesBy (last : Signal) (i : Instr) (s : State) (ea : Option Nat) : Prop :=
  ∃ arg, (signalSequence i = [.latchAddress arg, last] ∧ ea = directAddress s arg) ∨
    (signalSequence i = [.latchAddress arg, .addressByAddress, last] ∧ ea = indirectAddress s arg)

/-- An access ends before its last signal, with only `AR`, `TICK` and `STATUS` touched, exactly where there is no
effective address; else the last signal runs at that address. -/
theorem exec_access (last : Signal) (i : Instr) (s t : State) (ea : Option Nat) (hi : AccessesBy last i s ea)
    (h : exec i s = .next t) :
    (ea = none ∧ ∃ ar tick status, t = { s with ar := ar, tick := tick, status := status }) ∨
      ∃ a tick, ea = some a ∧ t = runSignals [last] { s with ar := a, tick := tick } := by
  obtain ⟨arg, ⟨hseq, rfl⟩ | ⟨hseq, rfl⟩⟩ := hi <;>
    rw [exec_of_signalSequence i s (by simp [hseq]), hseq] at h <;> cases h
  · rcases runSignals_latch_cases arg [last] s with ⟨hea, ht⟩ | ⟨a, hea, ht⟩
    · exact .inl ⟨hea, _, _, _, ht⟩
    · exact .inr ⟨a, _, hea, ht⟩
  · rcases runSignals_indirect_cases arg [last] s with ⟨ha, ht⟩ | ⟨a, ha, hp, ht⟩ | ⟨a, p, ha, hp, ht⟩
    · exact .inl ⟨by simp [indirectAddress, ha], _, _, _, ht⟩
    · exact .inl ⟨by simp [indirectAddress, ha, hp], _, _, _, ht⟩
    · exact .inr ⟨p, _, by simp [indirectAddress, ha, hp], ht⟩

/-- The frame of `load` and `ld`, with the token they may take (10_state.md R28, R37). -/
theorem exec_reading_frame (i : Instr) (s t : State) (ea : Option Nat) (hi : AccessesBy .latchAccumulator i s ea)
    (h : exec i s = .next t) :
    t.par = s.par ∧ t.outq = s.outq ∧ t.icount = s.icount ∧ t.mem = s.mem ∧
      ∃ popped, popped.length ≤ 1 ∧ s.inq = popped ++ t.inq ∧ (ea ≠ some 0 → popped = []) := by
  rcases exec_access _ i s t ea hi h with ⟨-, ar, tick, status, rfl⟩ | ⟨a, tick, rfl, rfl⟩
  · exact ⟨rfl, rfl, rfl, rfl, [], by simp⟩
  · rcases runSignals_read_cases { s with ar := a, tick := tick } with
      ⟨c, rest, hport, hin, ht⟩ | ⟨-, -, ht⟩ | ⟨-, ht⟩ <;> rw [ht]
    · exact ⟨rfl, rfl, rfl, rfl, [c], by simp, hin, fun hne => absurd (congrArg some hport) hne⟩
    · exact ⟨rfl, rfl, rfl, rfl, [], by simp⟩
    · exact ⟨rfl, rfl, rfl, rfl, [], by simp⟩

/-- The frame of `store` and `st`, with the cell or the character they may write (10_state.md R29, R37). -/
theorem exec_writing_frame (i : Instr) (s t : State) (ea : Option Nat) (hi : AccessesBy .write i s ea)
    (h : exec i s = .next t) :
    t.par = s.par ∧ t.acc = s.acc ∧ t.inq = s.inq ∧ t.icount = s.icount ∧
      (t.mem = s.mem ∨ ∃ a, ea = some a ∧ a ≠ 1 ∧ t.mem = (writeCell a s.acc s).mem) ∧
      ∃ out, out.length ≤ 1 ∧ t.outq = s.outq ++ out ∧ (ea ≠ some 1 → out = []) := by
  rcases exec_access _ i s t ea hi h with ⟨-, ar, tick, status, rfl⟩ | ⟨a, tick, rfl, rfl⟩
  · exact ⟨rfl, rfl, rfl, rfl, .inl rfl, [], by simp⟩
  · rcases runSignals_write_cases { s with ar := a, tick := tick } with
      ⟨hport, -, -, ht⟩ | ⟨-, ht⟩ | ⟨hcell, ht⟩ <;> rw [ht]
    · exact ⟨rfl, rfl, rfl, rfl, .inl rfl, [s.acc], by simp, rfl, fun hne => absurd (congrArg some hport) hne⟩
    · exact ⟨rfl, rfl, rfl, rfl, .inl rfl, [], by simp⟩
    · exact ⟨rfl, rfl, rfl, rfl, .inr ⟨a, rfl, hcell, rfl⟩, [], by simp⟩

/-- An arithmetic instruction latches its argument and applies its operation (45_arithmetic.md R207). -/
theorem signalSequence_of_arithmetic (i : Instr) (hi : opClass i = .arithmeticWithOperand) :
    ∃ addr op, signalSequence i = [.latchAddress addr, .argOp op] := by
  cases i with
  | add _ | sub _ | mul _ | div _ | mod _ => exact ⟨_, _, rfl⟩
  | _ => cases hi

/-- The frame of the arithmetic instructions with a memory operand (10_state.md R37). -/
theorem exec_arithmetic_frame (i : Instr) (s t : State) (hi : opClass i = .arithmeticWithOperand)
    (h : exec i s = .next t) :
    t.par = s.par ∧ t.inq = s.inq ∧ t.outq = s.outq ∧ t.icount = s.icount ∧ t.mem = s.mem := by
  obtain ⟨addr, op, hseq⟩ := signalSequence_of_arithmetic i hi
  rw [exec_of_signalSequence i s (by simp [hseq]), hseq] at h
  cases h
  rcases runSignals_argOp_cases op addr s with ⟨-, ht⟩ | ⟨a, v, -, -, ht⟩ | ⟨a, c, -, -, ht⟩ <;> rw [ht] <;> simp

/-- The instructions without a memory operand: the jumps and `halt`, which issue no signal, and `inc`, `dec` and
`mov`. -/
def RegisterOnly (i : Instr) : Prop := signalSequence i = [] ∨ i = .inc ∨ i = .dec ∨ ∃ v, i = .mov v

/-- The frame of the instructions that issue no signal (10_state.md R37). -/
theorem exec_no_signal_frame (i : Instr) (s t : State) (hi : signalSequence i = []) (h : exec i s = .next t) :
    t.par = s.par ∧ t.acc = s.acc ∧ t.ar = s.ar ∧ t.inq = s.inq ∧ t.outq = s.outq ∧ t.icount = s.icount ∧
      t.mem = s.mem ∧ (i ≠ .halt → t.status = s.status) := by
  rcases exec_cases i s with ⟨hne, -, -⟩ | ⟨target, -, h' | h'⟩ | ⟨rfl, h'⟩
  · exact absurd hi hne
  all_goals rw [h'] at h; cases h; simp

/-- The frame of the instructions without a memory operand (10_state.md R37). -/
theorem exec_registerOnly_frame (i : Instr) (s t : State) (hi : RegisterOnly i) (h : exec i s = .next t) :
    t.par = s.par ∧ t.ar = s.ar ∧ t.inq = s.inq ∧ t.outq = s.outq ∧ t.icount = s.icount ∧ t.mem = s.mem := by
  have noArg : ∀ op, t = runSignals [.noArgOp op] s →
      t.par = s.par ∧ t.ar = s.ar ∧ t.inq = s.inq ∧ t.outq = s.outq ∧ t.icount = s.icount ∧ t.mem = s.mem := by
    rintro op rfl
    rcases runSignals_noArgOp_cases op s with ⟨v, -, ht⟩ | ⟨c, -, ht⟩ <;> rw [ht] <;> simp
  rcases hi with hseq | rfl | rfl | ⟨v, rfl⟩
  · obtain ⟨hpar, -, har, hinq, houtq, hic, hmem, -⟩ := exec_no_signal_frame i s t hseq h
    exact ⟨hpar, har, hinq, houtq, hic, hmem⟩
  · cases h; exact noArg .inc rfl
  · cases h; exact noArg .dec rfl
  · cases h; exact ⟨rfl, rfl, rfl, rfl, rfl, rfl⟩

/-- Every instruction belongs to one of the four families whose frames stand above. -/
theorem instr_families (i : Instr) (s : State) :
    RegisterOnly i ∨ opClass i = .arithmeticWithOperand ∨ (∃ ea, AccessesBy .latchAccumulator i s ea) ∨
      ∃ ea, AccessesBy .write i s ea := by
  cases i with
  | inc => exact .inl (.inr (.inl rfl))
  | dec => exact .inl (.inr (.inr (.inl rfl)))
  | mov v => exact .inl (.inr (.inr (.inr ⟨v, rfl⟩)))
  | jmp _ | jz _ | jnz _ | halt => exact .inl (.inl rfl)
  | add _ | sub _ | mul _ | div _ | mod _ => exact .inr (.inl rfl)
  | load arg => exact .inr (.inr (.inl ⟨_, arg, .inl ⟨rfl, rfl⟩⟩))
  | ld arg => exact .inr (.inr (.inl ⟨_, arg, .inr ⟨rfl, rfl⟩⟩))
  | store arg => exact .inr (.inr (.inr ⟨_, arg, .inl ⟨rfl, rfl⟩⟩))
  | st arg => exact .inr (.inr (.inr ⟨_, arg, .inr ⟨rfl, rfl⟩⟩))

/-- An instruction takes at most one token and writes at most one character (10_state.md R28, R29). -/
theorem exec_queues (i : Instr) (s t : State) (h : exec i s = .next t) :
    (∃ out, out.length ≤ 1 ∧ t.outq = s.outq ++ out) ∧ ∃ popped, popped.length ≤ 1 ∧ s.inq = popped ++ t.inq := by
  rcases instr_families i s with hi | hi | ⟨ea, hi⟩ | ⟨ea, hi⟩
  · obtain ⟨-, -, hinq, houtq, -, -⟩ := exec_registerOnly_frame i s t hi h
    exact ⟨⟨[], by simp [houtq]⟩, [], by simp [hinq]⟩
  · obtain ⟨-, hinq, houtq, -, -⟩ := exec_arithmetic_frame i s t hi h
    exact ⟨⟨[], by simp [houtq]⟩, [], by simp [hinq]⟩
  · obtain ⟨-, houtq, -, -, popped, hlen, hinq, -⟩ := exec_reading_frame i s t ea hi h
    exact ⟨⟨[], by simp [houtq]⟩, popped, hlen, hinq⟩
  · obtain ⟨-, -, hinq, -, -, out, hlen, houtq, -⟩ := exec_writing_frame i s t ea hi h
    exact ⟨⟨out, hlen, houtq⟩, [], by simp [hinq]⟩

/-- The cells depend on the memory and on the parameters alone. -/
theorem readCell_congr (s t : State) (hpar : t.par = s.par) (hmem : t.mem = s.mem) (a : Nat) :
    readCell t a = readCell s a := by
  simp only [readCell, hpar, hmem]

end Sys2Proof.Machine
end

section
/-! PROOFS. The queues, the counters and the frames of the four families of instructions (10_state.md R34, R37). -/

open Sys2Proof Sys2Proof.Machine Sys2Proof.Safety

/-- Settles O17: a step that executes an instruction moves the queues and `TICK` as the instruction does and adds one to
`ICOUNT`; every other step moves none of them. -/
theorem queuesAndCountersMoveOneWay : Obligations.QueuesAndCountersMoveOneWay := by
  unfold Obligations.QueuesAndCountersMoveOneWay
  intro s t h
  obtain ⟨-, ⟨-, rfl⟩ | ⟨-, ⟨-, rfl⟩ | ⟨w, -, ⟨r, -, rfl⟩ | ⟨i, -, hexec⟩⟩⟩⟩ := step_cases s t h
  case inr.inr.inr =>
    obtain ⟨hout, hin⟩ := exec_queues i _ t hexec
    obtain ⟨-, hic, hlow, hhigh, -⟩ := exec_control i _ t hexec
    simp only [countInstruction_icount, countInstruction_tick] at hic hlow hhigh
    exact ⟨hout, hin, hlow, hhigh, by omega, by omega⟩
  all_goals exact ⟨⟨[], by simp⟩, ⟨[], by simp⟩, by simp⟩

/-- Settles O47, by the frame of the instructions without a memory operand. -/
theorem registerOnlyFrame : Obligations.RegisterOnlyFrame := by
  unfold Obligations.RegisterOnlyFrame
  intro i s t hi h
  obtain ⟨hpar, har, hinq, houtq, hic, hmem⟩ := exec_registerOnly_frame i s t hi h
  refine ⟨hpar, har, hinq, houtq, hic, hmem, readCell_congr s t hpar hmem, fun hseq => ?_, fun hjump => ?_⟩
  · obtain ⟨-, hacc, -⟩ := exec_no_signal_frame i s t hseq h
    exact hacc
  · obtain ⟨hseq, hne⟩ : signalSequence i = [] ∧ i ≠ .halt := by
      cases i with
      | jmp _ | jz _ | jnz _ => exact ⟨rfl, nofun⟩
      | _ => simp [opClass] at hjump
    obtain ⟨-, -, -, -, -, -, -, hstatus⟩ := exec_no_signal_frame i s t hseq h
    exact hstatus hne

/-- Settles O48, by the frame that `load` and `ld` share at their effective addresses. -/
theorem loadingFrame : Obligations.LoadingFrame := by
  unfold Obligations.LoadingFrame
  intro arg s t
  have frame : ∀ i ea, AccessesBy .latchAccumulator i s ea → exec i s = .next t →
      t.par = s.par ∧ t.outq = s.outq ∧ t.icount = s.icount ∧ (∀ a : Nat, readCell t a = readCell s a) ∧
        (ea ≠ some 0 → t.inq = s.inq) := fun i ea hi h => by
    obtain ⟨hpar, houtq, hic, hmem, popped, -, hinq, hnone⟩ := exec_reading_frame i s t ea hi h
    exact ⟨hpar, houtq, hic, readCell_congr s t hpar hmem, fun hea => by simp [hinq, hnone hea]⟩
  exact ⟨frame (.load arg) _ ⟨arg, .inl ⟨rfl, rfl⟩⟩, frame (.ld arg) _ ⟨arg, .inr ⟨rfl, rfl⟩⟩⟩

/-- Settles O49, by the frame that `store` and `st` share at their effective addresses: the one write of a cell is at
`EA`, and never where `EA = 1`. -/
theorem storingFrame : Obligations.StoringFrame := by
  unfold Obligations.StoringFrame
  intro arg s t i ea hi h
  have haccess : AccessesBy .write i s ea := by
    rcases hi with ⟨rfl, hea⟩ | ⟨rfl, hea⟩
    · exact ⟨arg, .inl ⟨rfl, hea⟩⟩
    · exact ⟨arg, .inr ⟨rfl, hea⟩⟩
  obtain ⟨hpar, hacc, hinq, hic, hmem, out, -, houtq, hnone⟩ := exec_writing_frame i s t ea haccess h
  refine ⟨hpar, hacc, hinq, hic, fun a hea b hb => ?_, fun hea b => ?_, fun hea => by simp [houtq, hnone hea]⟩
  · rcases hmem with hmem | ⟨a', hea', -, hmem⟩
    · exact readCell_congr s t hpar hmem b
    · obtain rfl : a' = a := Option.some.inj (hea'.symm.trans hea)
      exact (readCell_congr (writeCell a' s.acc s) t hpar hmem b).trans (readCell_writeCell_other s a' b s.acc hb)
  · rcases hmem with hmem | ⟨a', hea', hport, -⟩
    · exact readCell_congr s t hpar hmem b
    · rcases hea with hea | hea <;> rw [hea'] at hea <;> cases hea
      exact absurd rfl hport

/-- Settles O50, by the frame of the arithmetic instructions. -/
theorem arithmeticFrame : Obligations.ArithmeticFrame := by
  unfold Obligations.ArithmeticFrame
  intro i s t hi h
  obtain ⟨hpar, hinq, houtq, hic, hmem⟩ := exec_arithmetic_frame i s t hi h
  exact ⟨hpar, hinq, houtq, hic, hmem, readCell_congr s t hpar hmem⟩
end

section
/-! PROOFS. The invariant of the reachable states (10_state.md R34). The signals, `PC` updates and ticks of one
instruction keep the clauses that mention neither `PC` nor a counter (`DataInv`); the clauses on `PC`, `ICOUNT` and
`TICK` hold again at the end of the step, by what an instruction does to the control state. -/

namespace Sys2Proof.Safety

open Sys2Proof.Machine

/-- The clauses of `Inv` that mention neither `PC` nor a counter. -/
structure DataInv (s : State) : Prop where
  params : parameterRefusal s.par = none
  acc : InBand s.acc
  ar : s.ar < s.par.memSize
  memForm : Memory.wf s.par.memFill s.par.memSize s.mem
  cells : ∀ a : Nat, InBand (readCell s a)
  inputLeft : s.inq <:+ s.par.input
  outputCodes : ∀ c ∈ s.outq, 0 ≤ c ∧ c ≤ (s.par.charMax : Int)
  portCell : readCell s 1 = readCell (resetState s.par) 1
  overflow : s.status = .faulted .arithmeticOverflow → s.par.ovfPolicy = .fault

theorem Inv.data {s : State} (h : Inv s) : DataInv s := { h with }

theorem DataInv.inv {s : State} (h : DataInv s) (pc : InBand s.pc) (icount : s.icount ≤ s.par.limit)
    (tick : s.tick ≤ 3 * s.icount) : Inv s := { h with pc, icount, tick }

variable {s : State}

/-- `PC` and the counters play no part in `DataInv`. -/
theorem DataInv.control (h : DataInv s) (pc : Int) (tick icount : Nat) :
    DataInv { s with pc := pc, tick := tick, icount := icount } := { h with }

theorem DataInv.raise (h : DataInv s) (c : Condition)
    (hc : c = .fault .arithmeticOverflow → s.par.ovfPolicy = .fault) : DataInv (raiseCondition c s) :=
  { h with overflow := fun hs => hc (by cases c <;> cases hs; rfl) }

theorem DataInv.setAr (h : DataInv s) (a : Nat) (ha : a < s.par.memSize) : DataInv { s with ar := a } :=
  { h with ar := ha }

theorem DataInv.setAcc (h : DataInv s) (v : Int) (hv : InBand v) : DataInv { s with acc := v } :=
  { h with acc := hv }

/-- A token of `INPUT` is a character code, so it is in the band (00_scope.md R7). -/
theorem DataInv.token_inBand (h : DataInv s) (c : Int) (hc : c ∈ s.inq) : InBand c := by
  obtain ⟨-, -, -, -, -, -, htokens, hmax, -⟩ := (parameterRefusal_eq_none s.par).mp h.params
  have hcode := htokens c (h.inputLeft.subset hc)
  simp only [InBand]
  omega

theorem DataInv.pop (h : DataInv s) (c : Int) (rest : List Int) (hin : s.inq = c :: rest) :
    DataInv { s with acc := c, inq := rest } :=
  { h with
    acc := h.token_inBand c (by simp [hin])
    inputLeft := (hin ▸ List.suffix_cons c rest : rest <:+ s.inq).trans h.inputLeft }

theorem DataInv.emit (h : DataInv s) (c : Int) (hc : 0 ≤ c ∧ c ≤ (s.par.charMax : Int)) :
    DataInv { s with outq := s.outq ++ [c] } :=
  { h with
    outputCodes := fun d hd => by
      rcases List.mem_append.mp hd with hd | hd
      · exact h.outputCodes d hd
      · exact List.mem_singleton.mp hd ▸ hc }

/-- Writing the accumulator to the cell at `AR`, the output port's cell excepted (20_memory.md R54, R58). -/
theorem DataInv.write (h : DataInv s) (hport : s.ar ≠ 1) : DataInv (writeCell s.ar s.acc s) :=
  { h with
    memForm := Memory.wf_write _ _ _ _ _ h.ar h.memForm
    cells := fun b => by
      by_cases hb : b = s.ar
      · rw [hb, readCell_writeCell_same s s.ar s.acc h.memForm.1]
        exact h.acc
      · rw [readCell_writeCell_other s s.ar b s.acc hb]
        exact h.cells b
    portCell := (readCell_writeCell_other s s.ar 1 s.acc (Ne.symm hport)).trans h.portCell }

/-- A completed signal keeps `DataInv`; the literal of `set_accumulator` must be in the band. -/
theorem DataInv.of_signal (h : DataInv s) (sig : Signal) (t : State) (hrun : runSignal sig s = .ok t)
    (hlit : ∀ v, sig = .setAccumulator v → InBand v) : DataInv t := by
  cases sig with
  | latchAddress addr =>
    obtain ⟨a, ha, rfl⟩ := (latchAddress_ok addr s t).mp hrun
    exact h.setAr a ((dataAddress_eq_some _ _ _).mp ha).2
  | addressByAddress =>
    obtain ⟨p, hp, rfl⟩ := (addressByAddress_ok s t).mp hrun
    exact h.setAr p ((dataAddress_eq_some _ _ _).mp hp).2
  | latchAccumulator =>
    rcases (latchAccumulator_ok s t).mp hrun with ⟨-, c, rest, hin, rfl⟩ | ⟨-, rfl⟩
    · exact h.pop c rest hin
    · exact h.setAcc _ (h.cells s.ar)
  | write =>
    rcases (writeAccumulator_ok s t).mp hrun with ⟨-, h0, h1, rfl⟩ | ⟨hport, rfl⟩
    · exact h.emit s.acc ⟨h0, h1⟩
    · exact h.write hport
  | setAccumulator value =>
    cases hrun
    exact h.setAcc value (hlit value rfl)
  | noArgOp op =>
    obtain ⟨v, hv, rfl⟩ := (noArgOp_ok op s t).mp hrun
    exact h.setAcc v (corr_inBand _ _ v hv)
  | argOp op =>
    obtain ⟨v, hv, rfl⟩ := (argOp_ok op s t).mp hrun
    exact h.setAcc v (argResult_inBand _ op _ _ v hv)

/-- `ArithmeticOverflow` is raised only under the policy `fault` (60_exceptions.md R230). -/
theorem DataInv.signal_overflow (h : DataInv s) (sig : Signal)
    (hrun : runSignal sig s = .error (.fault .arithmeticOverflow)) : s.par.ovfPolicy = .fault := by
  rcases runSignal_error sig s _ hrun with
    ⟨_, hc, -⟩ | ⟨-, hc, -⟩ | ⟨-, hc, -⟩ | ⟨op, -, hcorr⟩ | ⟨op, -, hres⟩
  · cases hc
  · cases hc
  · cases hc
  · obtain ⟨-, hpol, -⟩ := corr_error _ _ _ hcorr
    exact hpol
  · rcases argResult_error _ op _ _ _ h.acc (h.cells s.ar) hres with ⟨hc, -⟩ | ⟨-, -, hpol, -⟩
    · cases hc
    · exact hpol

/-- A sequence of signals keeps `DataInv`, whichever way it ends. -/
theorem DataInv.of_signals (h : DataInv s) (sigs : List Signal)
    (hlit : ∀ v, .setAccumulator v ∈ sigs → InBand v) : DataInv (runSignals sigs s) := by
  induction sigs generalizing s with
  | nil => exact h.control (s.pc + 1) s.tick s.icount
  | cons sig rest ih =>
    cases hrun : runSignal sig s with
    | error c =>
      rw [runSignals_cons_error sig rest s c hrun]
      exact h.raise c fun hc => h.signal_overflow sig (hc ▸ hrun)
    | ok t =>
      rw [runSignals_cons_ok sig rest s t hrun]
      have ht : DataInv t := h.of_signal sig t hrun fun v hv => hlit v (by simp [hv])
      exact ih (ht.control t.pc (t.tick + 1) t.icount) fun v hv => hlit v (List.mem_cons_of_mem _ hv)

/-- The literal an instruction sets `ACC` to is its argument (43_accumulator_ops.md R182). -/
theorem argumentOf_of_setAccumulator (i : Instr) (v : Int) (h : .setAccumulator v ∈ signalSequence i) :
    argumentOf i = some v := by
  cases i <;> simp [signalSequence] at h
  simp [argumentOf, h]

/-- An instruction whose argument is in the band keeps `DataInv`. -/
theorem DataInv.of_exec (h : DataInv s) (i : Instr) (t : State) (harg : ∀ a ∈ argumentOf i, InBand a)
    (hexec : exec i s = .next t) : DataInv t := by
  rcases exec_cases i s with ⟨-, -, h'⟩ | ⟨target, -, h' | h'⟩ | ⟨-, h'⟩ <;> rw [h'] at hexec <;> cases hexec
  · exact h.of_signals _ fun v hv => harg v (argumentOf_of_setAccumulator i v hv)
  · exact h.control target (s.tick + 1) s.icount
  · exact h.control (s.pc + 1) (s.tick + 1) s.icount
  · exact h.raise .halted nofun

/-- A condition raised before any signal keeps the invariant (60_exceptions.md R233). -/
theorem Inv.raise (h : Inv s) (c : Condition) (hc : c ≠ .fault .arithmeticOverflow) : Inv (raiseCondition c s) :=
  (h.data.raise c fun hov => absurd hov hc).inv h.pc h.icount h.tick

/-- An executed instruction keeps the invariant: the fetch bounds `PC` by the program's length, so `PC + 1` is in the
band, and the limit check leaves room for the count. -/
theorem Inv.of_exec (h : Inv s) (w : Word40) (i : Instr) (t : State) (hlim : s.icount < s.par.limit)
    (hfetch : fetchWord s = some w) (hdec : decode w = .ok i) (hexec : exec i (countInstruction s) = .next t) :
    Inv t := by
  have harg := decode_argument_inBand w i hdec
  have hdata : DataInv t := (h.data.control s.pc s.tick (s.icount + 1)).of_exec i t harg hexec
  obtain ⟨hpar, hic, -, htick, hpc⟩ := exec_control i (countInstruction s) t hexec
  simp only [countInstruction_par, countInstruction_icount, countInstruction_tick, countInstruction_pc]
    at hpar hic htick hpc
  have hbound := h.tick
  refine hdata.inv ?_ (by rw [hic, hpar]; omega) (by omega)
  obtain ⟨hnonneg, hword⟩ := (fetchWord_eq_some s w).mp hfetch
  obtain ⟨hlen, -⟩ := List.getElem?_eq_some_iff.mp hword
  obtain ⟨-, -, -, hprog, -⟩ := (parameterRefusal_eq_none s.par).mp h.params
  rcases hpc with hpc | hpc | hpc
  · rw [hpc]
    exact h.pc
  · simp only [InBand]
    omega
  · exact harg t.pc hpc

/-- The state that reset builds from accepted parameters meets the invariant (70_reset_and_hazards.md R251 to R254). -/
theorem inv_resetState (p : Params) (h : parameterRefusal p = none) : Inv (resetState p) := by
  obtain ⟨-, -, -, -, hlen, himage, -, -, hacc, har, hfill⟩ := (parameterRefusal_eq_none p).mp h
  have hcell : ∀ a, readCell (resetState p) a = p.dataImage[a]?.getD p.memFill := fun a => by
    rw [← Memory.read_ofImage p.memFill 0 p.dataImage a, Nat.zero_add]
    rfl
  exact
    { params := h
      acc := hacc
      ar := har
      memForm := Memory.wf_ofImage p.memFill p.memSize 0 p.dataImage (by simpa using hlen)
      cells := fun a => by
        rw [hcell]
        cases hv : p.dataImage[a]? with
        | none => exact hfill
        | some v => exact himage v (List.mem_of_getElem? hv)
      inputLeft := List.suffix_refl p.input
      outputCodes := nofun
      pc := by simp [InBand, resetState]
      icount := Nat.zero_le _
      tick := Nat.zero_le _
      portCell := rfl
      overflow := nofun }

end Sys2Proof.Safety
end

section
/-! PROOFS. The invariant at reset and at every step. -/

open Sys2Proof Sys2Proof.Machine Sys2Proof.Safety

/-- Settles O12, by the cases of a step: three raise a condition, the fourth executes an instruction. -/
theorem stepKeepsTheInvariant : Obligations.StepKeepsTheInvariant := by
  unfold Obligations.StepKeepsTheInvariant
  intro s t hinv h
  obtain ⟨-, ⟨-, rfl⟩ | ⟨hlim, ⟨-, rfl⟩ | ⟨w, hfetch, ⟨r, -, rfl⟩ | ⟨i, hdec, hexec⟩⟩⟩⟩ := step_cases s t h
  · exact hinv.raise _ nofun
  · exact hinv.raise _ nofun
  · exact hinv.raise _ nofun
  · exact hinv.of_exec w i t hlim hfetch hdec hexec

/-- Settles O11: reset builds its state from accepted parameters. -/
theorem bootMeetsTheInvariant : Obligations.BootMeetsTheInvariant := by
  unfold Obligations.BootMeetsTheInvariant
  intro p s h
  obtain ⟨hp, rfl⟩ := (boot_eq_ok p s).mp h
  exact inv_resetState p hp

/-- Settles O7: every clause is the evaluation of one field, and reset accepts the parameters. -/
theorem resetStateIsR35 : Obligations.ResetStateIsR35 := by
  unfold Obligations.ResetStateIsR35
  exact ⟨rfl, rfl, rfl, rfl, rfl, rfl, rfl, rfl, rfl, rfl, rfl⟩

/-- Settles O10: the reset state is the first state of a run with the default parameters. -/
theorem resetMeetsTheInvariant : Obligations.ResetMeetsTheInvariant := by
  unfold Obligations.ResetMeetsTheInvariant
  exact inv_resetState Config.defaultParams rfl
end

section
/-! PROOFS. Noninterference: a change of the state that no signal and no check sees passes through a whole step
unchanged. -/

namespace Sys2Proof.Machine

/-- `f` changes only what nothing reads: it commutes with every operation on the state, and leaves what the checks and
the jumps look at. -/
structure Unread (f : State → State) : Prop where
  signal : ∀ sig s, runSignal sig (f s) = (runSignal sig s).map f
  tick : ∀ s, tickOnce (f s) = f (tickOnce s)
  advance : ∀ s, advancePc (f s) = f (advancePc s)
  jump : ∀ target s, jumpTo target (f s) = f (jumpTo target s)
  count : ∀ s, countInstruction (f s) = f (countInstruction s)
  raise : ∀ c s, raiseCondition c (f s) = f (raiseCondition c s)
  par : ∀ s, (f s).par = s.par
  acc : ∀ s, (f s).acc = s.acc
  pc : ∀ s, (f s).pc = s.pc
  icount : ∀ s, (f s).icount = s.icount
  status : ∀ s, (f s).status = s.status

variable {f : State → State}

theorem Unread.of_signals (hf : Unread f) (sigs : List Signal) (s : State) :
    runSignals sigs (f s) = f (runSignals sigs s) := by
  induction sigs generalizing s with
  | nil => exact hf.advance s
  | cons sig rest ih =>
    simp only [runSignals, hf.signal]
    cases runSignal sig s with
    | error c => exact hf.raise c s
    | ok t => simp only [Except.map, hf.tick, ih]

theorem Unread.of_exec (hf : Unread f) (i : Instr) (s t : State) (h : exec i s = .next t) :
    exec i (f s) = .next (f t) := by
  have hzero : zero (f s) = zero s := by simp only [zero, hf.acc]
  cases i with
  | jmp target => cases h; simp only [exec, execJmp, hf.jump, hf.tick]
  | jz target =>
    cases h
    simp only [exec, execJz, hzero, hf.jump, hf.advance, ← apply_ite f, hf.tick]
  | jnz target =>
    cases h
    simp only [exec, execJnz, hzero, hf.jump, hf.advance, ← apply_ite f, hf.tick]
  | halt => cases h; simp only [exec, execHalt, hf.raise]
  | _ => cases h; exact congrArg _ (hf.of_signals _ s)

theorem Unread.of_step (hf : Unread f) (s t : State) (h : step s = .next t) : step (f s) = .next (f t) := by
  have hlimit : limitReached (f s) = limitReached s := by simp only [limitReached, hf.par, hf.icount]
  have hfetch : fetchWord (f s) = fetchWord s := by simp only [fetchWord, hf.par, hf.pc]
  simp only [step] at h
  simp only [step, hf.status, hlimit, hfetch, hf.pc, hf.raise, hf.count]
  split at h
  case isFalse => cases h
  case isTrue hrun =>
    rw [if_pos hrun]
    split at h
    case isTrue hlim => cases h; rw [if_pos hlim]
    case isFalse hlim =>
      rw [if_neg hlim]
      cases hw : fetchWord s with
      | none => rw [hw] at h; cases h; rfl
      | some w =>
        rw [hw] at h
        cases hd : decode w with
        | error r => simp only [hd] at h ⊢; cases h; rfl
        | ok i => simp only [hd] at h ⊢; exact hf.of_exec i _ t h

/-- `s` with `earlier` written to `OUT` before everything else. -/
def prependOut (earlier : List Int) (s : State) : State := { s with outq := earlier ++ s.outq }

/-- What stands in `OUT` is read by nothing; `write()` appends behind it (10_state.md R29). -/
theorem prependOut_unread (earlier : List Int) : Unread (prependOut earlier) where
  signal sig s := by
    cases sig with
    | latchAddress addr =>
      simp only [runSignal, latchAddress, directAddress, prependOut]
      split <;> rfl
    | addressByAddress =>
      simp only [runSignal, addressByAddress, pointerAddress, readCell, prependOut]
      split <;> rfl
    | latchAccumulator =>
      by_cases har : s.ar = 0
      · cases hin : s.inq <;> simp [runSignal, latchAccumulator, prependOut, har, hin, Except.map]
      · simp [runSignal, latchAccumulator, readCell, prependOut, har, Except.map]
    | write =>
      by_cases har : s.ar = 1
      · by_cases hbad : s.acc < 0 ∨ (s.par.charMax : Int) < s.acc <;>
          simp [runSignal, writeAccumulator, prependOut, har, hbad, Except.map]
      · simp [runSignal, writeAccumulator, writeCell, prependOut, har, Except.map]
    | setAccumulator value => rfl
    | noArgOp op =>
      simp only [runSignal, noArgOp, prependOut]
      split <;> rfl
    | argOp op =>
      simp only [runSignal, argOp, readCell, prependOut]
      split <;> rfl
  tick _ := rfl
  advance _ := rfl
  jump _ _ := rfl
  count _ := rfl
  raise _ _ := rfl
  par _ := rfl
  acc _ := rfl
  pc _ := rfl
  icount _ := rfl
  status _ := rfl

/-- An instruction has no memory operand, or begins by latching its argument into `AR` (41_control_cycle.md R143). -/
theorem registerOnly_or_latches (i : Instr) (s : State) :
    RegisterOnly i ∨ ∃ addr rest, signalSequence i = .latchAddress addr :: rest := by
  rcases instr_families i s with hi | hi | ⟨_, arg, ⟨hseq, -⟩ | ⟨hseq, -⟩⟩ | ⟨_, arg, ⟨hseq, -⟩ | ⟨hseq, -⟩⟩
  · exact .inl hi
  · obtain ⟨addr, op, hseq⟩ := signalSequence_of_arithmetic i hi
    exact .inr ⟨addr, _, hseq⟩
  all_goals exact .inr ⟨arg, _, hseq⟩

/-- An instruction without a memory operand carries `AR` along unseen. -/
theorem exec_registerOnly_ar (i : Instr) (s t : State) (a : Nat) (hi : RegisterOnly i) (h : exec i s = .next t) :
    exec i { s with ar := a } = .next { t with ar := a } := by
  have noArg : ∀ op, runSignals [.noArgOp op] { s with ar := a } = { runSignals [.noArgOp op] s with ar := a } := by
    intro op
    simp only [runSignals, runSignal, noArgOp]
    cases corr s.par.ovfPolicy (noArgRaw op s.acc) <;> rfl
  have hzero : zero { s with ar := a } = zero s := rfl
  rcases hi with hseq | rfl | rfl | ⟨v, rfl⟩
  · cases i with
    | jmp _ | halt => cases h; rfl
    | jz _ => cases h; simp only [exec, execJz, hzero]; cases zero s <;> rfl
    | jnz _ => cases h; simp only [exec, execJnz, hzero]; cases zero s <;> rfl
    | _ => cases hseq
  · cases h; exact congrArg _ (noArg .inc)
  · cases h; exact congrArg _ (noArg .dec)
  · cases h; rfl

/-- A latched address replaces what `AR` held; where the latch fails, `AR` stays unseen (40_datapath_signals.md R110). -/
theorem runSignals_latch_ar (addr : Int) (rest : List Signal) (s : State) (a : Nat) :
    runSignals (.latchAddress addr :: rest) { s with ar := a } = runSignals (.latchAddress addr :: rest) s ∨
      ((runSignals (.latchAddress addr :: rest) s).ar = s.ar ∧
        runSignals (.latchAddress addr :: rest) { s with ar := a } =
          { runSignals (.latchAddress addr :: rest) s with ar := a }) := by
  rcases runSignals_latch_cases addr rest s with ⟨hnone, ht⟩ | ⟨b, hb, ht⟩ <;> rw [ht]
  · exact .inr ⟨rfl, runSignals_latch_invalid addr rest { s with ar := a } hnone⟩
  · exact .inl (runSignals_latch_valid addr b rest { s with ar := a } hb)

end Sys2Proof.Machine
end

section
/-! PROOFS. The two noninterference statements of 10_state.md. -/

open Sys2Proof Sys2Proof.Machine Sys2Proof.Safety

/-- Settles O23: an instruction either overwrites `AR` with its first signal, or carries it along. -/
theorem addressRegisterIsNeverObserved : Obligations.AddressRegisterIsNeverObserved := by
  unfold Obligations.AddressRegisterIsNeverObserved
  intro i s a
  rcases registerOnly_or_latches i s with hi | ⟨addr, rest, hseq⟩
  · obtain ⟨t, ht⟩ := exec_next i s
    obtain ⟨-, har, -⟩ := exec_registerOnly_frame i s t hi ht
    exact ⟨t, ht, .inr ⟨har, exec_registerOnly_ar i s t a hi ht⟩⟩
  · have hrun : ∀ u, exec i u = .next (runSignals (.latchAddress addr :: rest) u) := fun u =>
      hseq ▸ exec_of_signalSequence i u (by simp [hseq])
    refine ⟨_, hrun s, ?_⟩
    rw [hrun { s with ar := a }]
    rcases runSignals_latch_ar addr rest s a with ht | ⟨har, ht⟩
    · exact .inl (congrArg _ ht)
    · exact .inr ⟨har, congrArg _ ht⟩

/-- Settles O24: what stood in `OUT` before is a change that nothing reads. -/
theorem outputIsNeverRead : Obligations.OutputIsNeverRead := by
  unfold Obligations.OutputIsNeverRead
  intro s t earlier h
  exact (prependOut_unread earlier).of_step s t h
end

section
/-! PROOFS. The ports of the data memory (20_memory.md R53, R54): which instructions take a token or write a character,
and the constants of a run (R64). -/

namespace Sys2Proof.Machine

/-- No step changes the parameters: a raised condition and an executed instruction both keep them (10_state.md R36). -/
theorem step_par (s t : State) (h : step s = .next t) : t.par = s.par := by
  obtain ⟨-, ⟨-, rfl⟩ | ⟨-, ⟨-, rfl⟩ | ⟨w, -, ⟨r, -, rfl⟩ | ⟨i, -, hexec⟩⟩⟩⟩ := step_cases s t h
  · rfl
  · rfl
  · rfl
  · obtain ⟨hpar, -⟩ := exec_control i (countInstruction s) t hexec
    exact hpar

/-- Only `load` and `ld` end with `latch_accumulator` (41_control_cycle.md R143). -/
theorem AccessesBy.load_or_ld {i : Instr} {s : State} {ea : Option Nat} (h : AccessesBy .latchAccumulator i s ea) :
    ∃ a, i = .load a ∨ i = .ld a := by
  obtain ⟨arg, hseq⟩ := h
  cases i with
  | load a => exact ⟨a, .inl rfl⟩
  | ld a => exact ⟨a, .inr rfl⟩
  | _ => simp [signalSequence] at hseq

/-- Only `store` and `st` end with `write` (41_control_cycle.md R143). -/
theorem AccessesBy.store_or_st {i : Instr} {s : State} {ea : Option Nat} (h : AccessesBy .write i s ea) :
    ∃ a, i = .store a ∨ i = .st a := by
  obtain ⟨arg, hseq⟩ := h
  cases i with
  | store a => exact ⟨a, .inl rfl⟩
  | st a => exact ⟨a, .inr rfl⟩
  | _ => simp [signalSequence] at hseq

/-- An instruction that moves `IN` is `load` or `ld`, and one that moves `OUT` is `store` or `st`: the frames of the
other families keep both queues (20_memory.md R53). -/
theorem exec_ports (i : Instr) (s t : State) (h : exec i s = .next t) :
    (t.inq ≠ s.inq → ∃ a, i = .load a ∨ i = .ld a) ∧ (t.outq ≠ s.outq → ∃ a, i = .store a ∨ i = .st a) := by
  rcases instr_families i s with hi | hi | ⟨ea, hi⟩ | ⟨ea, hi⟩
  · obtain ⟨-, -, hinq, houtq, -, -⟩ := exec_registerOnly_frame i s t hi h
    exact ⟨fun hne => absurd hinq hne, fun hne => absurd houtq hne⟩
  · obtain ⟨-, hinq, houtq, -, -⟩ := exec_arithmetic_frame i s t hi h
    exact ⟨fun hne => absurd hinq hne, fun hne => absurd houtq hne⟩
  · obtain ⟨-, houtq, -⟩ := exec_reading_frame i s t ea hi h
    exact ⟨fun _ => hi.load_or_ld, fun hne => absurd houtq hne⟩
  · obtain ⟨-, -, hinq, -⟩ := exec_writing_frame i s t ea hi h
    exact ⟨fun hne => absurd hinq hne, fun _ => hi.store_or_st⟩

end Sys2Proof.Machine
end

section
/-! PROOFS. The statements of 20_memory.md. -/

open Sys2Proof Sys2Proof.Machine Sys2Proof.Safety

/-- Settles O16: the program is one of the parameters, and no step changes any of them. -/
theorem noStepChangesTheProgram : Obligations.NoStepChangesTheProgram := by
  unfold Obligations.NoStepChangesTheProgram
  intro s t h
  have hpar : t.par = s.par := step_par s t h
  exact ⟨congrArg Params.prog hpar, hpar⟩

/-- Settles O30: the signals complete as their `_ok` laws say, and the frames of the families give the consequence. -/
theorem portsAreSeenByTwoSignalsOnly : Obligations.PortsAreSeenByTwoSignalsOnly := by
  unfold Obligations.PortsAreSeenByTwoSignalsOnly
  intro s
  refine ⟨fun c rest har hin => ?_, fun har => ?_, fun har h0 h1 => ?_, fun har => ?_, fun op v hv => ?_,
    fun h0 h1 => ?_, fun i t h => exec_ports i s t h⟩
  · exact (latchAccumulator_ok s _).mpr (.inl ⟨har, c, rest, hin, rfl⟩)
  · exact (latchAccumulator_ok s _).mpr (.inr ⟨har, rfl⟩)
  · exact (writeAccumulator_ok s _).mpr (.inl ⟨har, h0, h1, rfl⟩)
  · exact (writeAccumulator_ok s _).mpr (.inr ⟨har, rfl⟩)
  · exact (argOp_ok op s _).mpr ⟨v, hv, rfl⟩
  · exact (addressByAddress_ok s _).mpr ⟨_, dataAddress_of_valid _ _ ⟨h0, h1⟩, rfl⟩

/-- Settles O31: no signal writes the cell, and nothing else in an instruction touches the memory. -/
theorem portCellOneIsNeverWritten : Obligations.PortCellOneIsNeverWritten := by
  unfold Obligations.PortCellOneIsNeverWritten
  intro i s t h
  exact exec_induction (fun u => readCell u 1 = readCell s 1) i
    (signal := fun sig _ u v hu hrun => (runSignal_readCell_one sig u v hrun).trans hu)
    (tick := fun _ hu => hu) (advance := fun _ hu => hu) (jump := fun _ _ _ hu => hu) (raised := fun _ _ hu => hu)
    s t rfl h
end

section
/-! PROOFS. The decoder and the loader said once: when a word decodes and to what, when it is rejected and by which
name, the two fields of every encoded word, and what the loader accepts (30_encoding.md). -/

namespace Sys2Proof

/-- R83: well-formedness speaks of the argument only. -/
theorem wellFormed_iff (i : Instr) : i.wellFormed = true ↔ ∀ a ∈ argumentOf i, InBand a := by
  cases i <;> simp [Instr.wellFormed, argumentOf]

theorem opcodeOf_lt (i : Instr) : opcodeOf i < 16 := by
  cases i <;> simp [opcodeOf]

/-- Both fields of every encoded word (R87, R88). -/
theorem encodedFields (i : Instr) : Laws.EncodedFields.Statement i := by
  have hopc : opcodeOf i < 256 := (opcodeOf_lt i).trans (by decide)
  cases harg : argumentOf i with
  | none => exact Laws.EncodedFields.of_no_argument i harg hopc
  | some a => exact Laws.EncodedFields.of_argument i a harg hopc fun h => (wellFormed_iff i).mp h a harg

theorem sext32_injective {b c : BitVec 32} (h : sext32 b = sext32 c) : b = c := by
  rw [← Laws.enc32_sext32 b, h, Laws.enc32_sext32]

theorem sext32_eq_zero (b : BitVec 32) : sext32 b = 0 ↔ b = 0#32 :=
  ⟨fun h => sext32_injective h, fun h => h ▸ rfl⟩

/-- Two words with the same fields are the same word (R84). -/
theorem word_ext {w v : Word40} (hopc : opcField w = opcField v) (harg : argField w = argField v) : w = v := by
  rw [← Laws.word_of_fields w, hopc, harg, Laws.word_of_fields]

theorem withoutArgument_eq_ok (i j : Instr) (opc : Nat) (arg : Int) :
    withoutArgument j opc arg = .ok i ↔ arg = 0 ∧ j = i := by
  by_cases h : arg = 0 <;> simp [withoutArgument, h]

theorem withoutArgument_eq_error (j : Instr) (opc : Nat) (arg : Int) (e : DecodeReject) :
    withoutArgument j opc arg = .error e ↔ arg ≠ 0 ∧ e = .strayArgument opc arg := by
  by_cases h : arg = 0 <;> simp [withoutArgument, h, eq_comm]

/-- A word decodes to `i` exactly when its fields are those of `i`, with a zero `ARG` where `i` takes no argument (R85,
R90, R94). -/
theorem decode_eq_ok (w : Word40) (i : Instr) :
    decode w = .ok i ↔ opcField w = opcodeOf i ∧ sext32 (argField w) = (argumentOf i).getD 0 := by
  constructor
  · intro h
    simp only [decode] at h
    split at h
    case h_1 hopc | h_2 hopc | h_16 hopc =>
      obtain ⟨harg, rfl⟩ := (withoutArgument_eq_ok _ _ _ _).mp h
      exact ⟨hopc, harg⟩
    case h_17 => cases h
    all_goals
      rename_i hopc
      cases h
      exact ⟨hopc, rfl⟩
  · rintro ⟨hopc, harg⟩
    cases i with
    | inc | dec | halt =>
      simp only [decode, hopc, opcodeOf]
      exact (withoutArgument_eq_ok _ _ _ _).mpr ⟨harg, rfl⟩
    | _ => simp only [decode, hopc, opcodeOf, harg, argumentOf, Option.getD_some]

/-- A word is rejected exactly for its opcode, or for an argument that is not zero on `inc`, `dec` or `halt` (R89,
R90). -/
theorem decode_eq_error (w : Word40) (e : DecodeReject) :
    decode w = .error e ↔
      (16 ≤ opcField w ∧ e = .illegalOpcode (opcField w)) ∨
        ((opcField w = 0x00 ∨ opcField w = 0x01 ∨ opcField w = 0x0F) ∧ argField w ≠ 0#32 ∧
          e = .strayArgument (opcField w) (sext32 (argField w))) := by
  simp only [decode]
  split
  case h_1 hopc | h_2 hopc | h_16 hopc =>
    simp [hopc, withoutArgument_eq_error, sext32_eq_zero]
  case h_17 =>
    simp only [imp_false] at *
    have hopc : 16 ≤ opcField w := by omega
    have hformat : ¬ (opcField w = 0x00 ∨ opcField w = 0x01 ∨ opcField w = 0x0F) := by omega
    rw [Except.error.injEq, eq_comm]
    simp only [hopc, hformat, true_and, false_and, or_false]
  all_goals
    rename_i hopc
    simp [hopc]

/-- Decoding undoes encoding on well-formed instructions (R87, R88). -/
theorem decode_encode (i : Instr) (h : i.wellFormed = true) : decode (encode i) = .ok i := by
  obtain ⟨hopc, harg⟩ := encodedFields i
  exact (decode_eq_ok _ _).mpr ⟨hopc, harg h⟩

/-- What a word decodes to is well formed (R83, R87). -/
theorem wellFormed_of_decode (w : Word40) (i : Instr) (h : decode w = .ok i) : i.wellFormed = true :=
  (wellFormed_iff i).mpr (Machine.decode_argument_inBand w i h)

/-- Encoding undoes decoding: the encoded word has the fields of the word decoded (R88). -/
theorem encode_decode (w : Word40) (i : Instr) (h : decode w = .ok i) : encode i = w := by
  obtain ⟨hopc, harg⟩ := (decode_eq_ok w i).mp h
  obtain ⟨hopc', harg'⟩ := encodedFields i
  exact word_ext (hopc'.trans hopc.symm) (sext32_injective ((harg' (wellFormed_of_decode w i h)).trans harg.symm))

/-- An illegal record stands as a word that decodes to nothing (R89, log 11). -/
theorem decode_illegalWord : decode illegalWord = .error (.illegalOpcode 0xFF) := by decide

/-- The word of a record with its argument in `INT32` decodes as the record does (R88, R94). -/
theorem decode_toWord (r : Record) (hband : ∀ a ∈ r.arg, InBand a) (i : Instr) :
    decode r.toWord = .ok i ↔ decodeRecord r = .ok i := by
  cases hr : decodeRecord r with
  | error e => simp [Record.toWord, hr, decode_illegalWord]
  | ok j =>
    obtain ⟨-, harg⟩ := (Laws.decodeRecord_eq_ok r j).mp hr
    have hwf : j.wellFormed = true := (wellFormed_iff j).mpr (harg ▸ hband)
    simp [Record.toWord, hr, decode_encode j hwf]

end Sys2Proof

namespace Sys2Proof.Machine

/-- What the loader requires of records whose first one stands at `position`: each index is its record's position, and
each argument is in `INT32` (R81, R83). -/
def RecordsAccepted (position : Nat) (records : List Record) : Prop :=
  ∀ (n : Nat) (r : Record), records[n]? = some r → r.index = ((position + n : Nat) : Int) ∧ ∀ a ∈ r.arg, InBand a

theorem recordsAccepted_nil (position : Nat) : RecordsAccepted position [] := by
  intro n r h
  simp at h

theorem recordsAccepted_cons (position : Nat) (r : Record) (rest : List Record) :
    RecordsAccepted position (r :: rest) ↔
      (r.index = (position : Int) ∧ ∀ a ∈ r.arg, InBand a) ∧ RecordsAccepted (position + 1) rest := by
  constructor
  · intro h
    exact ⟨h 0 r rfl, fun n q hq => by simpa [Nat.add_assoc, Nat.add_comm 1] using h (n + 1) q hq⟩
  · rintro ⟨hr, hrest⟩ n q hq
    cases n with
    | zero => cases hq; exact hr
    | succ n => simpa [Nat.add_assoc, Nat.add_comm 1] using hrest n q hq

theorem loadRecords_cons_eq_ok (position : Nat) (r : Record) (rest : List Record) (words : List Word40) :
    loadRecords position (r :: rest) = .ok words ↔
      (r.index = (position : Int) ∧ ∀ a ∈ r.arg, InBand a) ∧
        ∃ tail, loadRecords (position + 1) rest = .ok tail ∧ words = r.toWord :: tail := by
  simp only [loadRecords, ite_eq_iff, reduceCtorEq, and_false, false_or, ne_eq, not_not, and_assoc]
  cases loadRecords (position + 1) rest <;> simp [eq_comm]

/-- The loader answers the records' words exactly when it accepts the records (R81, R83, R93). -/
theorem loadRecords_eq_ok (position : Nat) (records : List Record) (words : List Word40) :
    loadRecords position records = .ok words ↔
      RecordsAccepted position records ∧ words = records.map Record.toWord := by
  induction records generalizing position words with
  | nil => simp [loadRecords, recordsAccepted_nil, eq_comm]
  | cons r rest ih => simp [loadRecords_cons_eq_ok, recordsAccepted_cons, ih, and_assoc]

end Sys2Proof.Machine
end

section
/-! PROOFS. The statements of 30_encoding.md. -/

open Sys2Proof Sys2Proof.Machine

/-- Settles O1: the encoded word has the instruction's fields, and the decoder reads nothing else. -/
theorem decodeOfEncode : Obligations.DecodeOfEncode := by
  unfold Obligations.DecodeOfEncode
  exact decode_encode

/-- Settles O2: what a word decodes to is well formed, so its encoding has the word's two fields. -/
theorem encodeOfDecode : Obligations.EncodeOfDecode := by
  unfold Obligations.EncodeOfDecode
  exact fun w i h => ⟨wellFormed_of_decode w i h, encode_decode w i h⟩

/-- Settles O3: `decode_eq_error` names the rejected words, and `decode_eq_ok` reads the others. -/
theorem everyWordIsLegalOrRejectedByName : Obligations.EveryWordIsLegalOrRejectedByName := by
  unfold Obligations.EveryWordIsLegalOrRejectedByName
  intro w
  refine ⟨fun hopc => (decode_eq_error w _).mpr (.inl ⟨hopc, rfl⟩),
    fun hopc harg => (decode_eq_error w _).mpr (.inr ⟨hopc, harg, rfl⟩), fun hopc hzero => ?_⟩
  cases hd : decode w with
  | ok i =>
    obtain ⟨hop, -⟩ := (decode_eq_ok w i).mp hd
    exact ⟨i, rfl, hop.symm, decode_argument w i hd⟩
  | error e =>
    rcases (decode_eq_error w e).mp hd with ⟨hge, -⟩ | ⟨hformat, harg, -⟩
    · omega
    · exact absurd (hzero hformat) harg

/-- Settles O5: `decodeRecord_eq_ok` with the mnemonics written out, `decode_toWord`, and a decoder that reads neither
index nor term. -/
theorem recordAndWordDecodeAlike : Obligations.RecordAndWordDecodeAlike := by
  unfold Obligations.RecordAndWordDecodeAlike
  exact fun r => ⟨Laws.decodeRecord_eq_ok r, decode_toWord r, fun _ _ => rfl⟩

/-- Settles O6: the loader's one equation, at position 0. -/
theorem loaderAcceptsExactly : Obligations.LoaderAcceptsExactly := by
  unfold Obligations.LoaderAcceptsExactly
  intro records
  have haccepted : RecordsAccepted 0 records ↔
      ∀ (n : Nat) (r : Record), records[n]? = some r → r.index = (n : Int) ∧ ∀ a ∈ r.arg, InBand a := by
    simp only [RecordsAccepted, Nat.zero_add]
  rw [← haccepted]
  refine ⟨⟨fun ⟨words, h⟩ => ?_, fun h => ⟨_, (loadRecords_eq_ok 0 records _).mpr ⟨h, rfl⟩⟩⟩, fun words h => ?_⟩ <;>
    obtain ⟨hrecords, hwords⟩ := (loadRecords_eq_ok 0 records words).mp h
  · exact hrecords
  · exact hwords

/-- Settles O4: nine closed words, evaluated by the decoder. -/
theorem writtenOutWordsDecode : Obligations.WrittenOutWordsDecode := by
  unfold Obligations.WrittenOutWordsDecode
  decide
end

section
/-! PROOFS. The datapath said once: the correction step inside and outside the one-step interval, the results of
`arg_op` other than a product, the address latch, and the two conditional jumps (40_datapath_signals.md). -/

namespace Sys2Proof.Machine

theorem corr1_of_above (raw : Int) (h : 2147483647 < raw) : corr1 raw = raw - 4294967296 := if_pos h

theorem corr1_of_below (raw : Int) (h : raw < -2147483648) : corr1 raw = raw + 4294967296 := by
  simp only [corr1, if_pos h, if_neg (show ¬ raw > 2147483647 by omega)]

theorem corr1_of_inBand (raw : Int) (h : InBand raw) : corr1 raw = raw := by
  obtain ⟨hlow, hhigh⟩ := h
  simp only [corr1, if_neg (not_lt.mpr hhigh), if_neg (not_lt.mpr hlow)]

/-- One correction step lands in the band exactly from the one-step interval (40_datapath_signals.md R119). -/
theorem corr1_inBand_iff (raw : Int) : InBand (corr1 raw) ↔ OneStep raw := by
  constructor
  · intro h
    by_cases hhigh : 2147483647 < raw
    · rw [corr1_of_above raw hhigh] at h
      omega
    · by_cases hlow : raw < -2147483648
      · rw [corr1_of_below raw hlow] at h
        omega
      · omega
  · intro h
    rw [corr1_eq_wrap32 raw h]
    exact wrap32_inBand raw

/-- In the one-step interval every policy applies the source's own step (40_datapath_signals.md R118). -/
theorem corr_eq_corr1 (policy : OvfPolicy) (raw : Int) (h : OneStep raw) : corr policy raw = .ok (corr1 raw) := if_pos h

/-- Outside the one-step interval a product is clamped to the end of the band on its own side (40_datapath_signals.md
R120). -/
theorem corr_saturate (raw : Int) (h : ¬ OneStep raw) :
    corr .saturate raw = .ok (if 0 < raw then 2147483647 else -2147483648) := by
  have hside : raw > 6442450943 ↔ 0 < raw := by omega
  simp only [corr, if_neg h, hside]

/-- `inc` and `dec` leave the band by one at most (40_datapath_signals.md R119). -/
theorem noArgRaw_bounds (op : NoArgOp) (a : Int) (h : InBand a) :
    -2147483649 ≤ noArgRaw op a ∧ noArgRaw op a ≤ 2147483648 := by
  cases op <;> simp only [noArgRaw] <;> omega

/-- An operation other than `mul` on operands in the band gives its raw result modulo 2^32, under every policy
(40_datapath_signals.md R119). -/
theorem argResult_of_argRaw (policy : OvfPolicy) (op : ArgOp) (a b raw : Int) (ha : InBand a) (hb : InBand b)
    (hop : op ≠ .mul) (h : argRaw op a b = .ok raw) : argResult policy op a b = .ok (wrap32 raw) := by
  simp only [argResult, h, corr_oneStep policy raw (argRaw_oneStep op a b raw ha hb hop h)]

theorem argRaw_div (a b : Int) (h : b ≠ 0) : argRaw .div a b = .ok (floorDiv a b) := if_neg h

theorem argRaw_mod (a b : Int) (h : b ≠ 0) : argRaw .mod a b = .ok (floorMod a b) := if_neg h

/-- The one quotient outside the band (40_datapath_signals.md R119, R121). -/
theorem floorDiv_eq_top_iff (a b : Int) (ha : InBand a) (hb : b ≠ 0) :
    floorDiv a b = 2147483648 ↔ a = -2147483648 ∧ b = -1 := by
  constructor
  · intro hq
    obtain ⟨heq, hrem⟩ := floor_spec a b hb
    rw [hq] at heq
    omega
  · rintro ⟨rfl, rfl⟩
    decide

/-- A quotient of integers of the band is in the band, or is 2^31, which wraps (40_datapath_signals.md R121). -/
theorem floorDiv_wraps_or_inBand (a b : Int) (ha : InBand a) (hb : b ≠ 0) :
    a = -2147483648 ∧ b = -1 ∧ floorDiv a b = 2147483648 ∧ wrap32 (floorDiv a b) = -2147483648 ∨
      InBand (floorDiv a b) ∧ wrap32 (floorDiv a b) = floorDiv a b := by
  by_cases htop : floorDiv a b = 2147483648
  · obtain ⟨hacc, hm⟩ := (floorDiv_eq_top_iff a b ha hb).mp htop
    exact .inl ⟨hacc, hm, htop, by rw [htop]; rfl⟩
  · obtain ⟨hlow, hhigh⟩ := floorDiv_bounds a b ha hb
    have hband : InBand (floorDiv a b) := ⟨hlow, by omega⟩
    exact .inr ⟨hband, wrap32_of_inBand _ hband⟩

theorem directAddress_of_valid (s : State) (addr : Int) (h : 0 ≤ addr ∧ addr < (s.par.memSize : Int)) :
    directAddress s addr = some addr.toNat := dataAddress_of_valid _ _ h

theorem directAddress_of_invalid (s : State) (addr : Int) (h : ¬ (0 ≤ addr ∧ addr < (s.par.memSize : Int))) :
    directAddress s addr = none := (dataAddress_eq_none _ _).mpr h

theorem latchAddress_of_invalid (s : State) (addr : Int) (h : directAddress s addr = none) :
    latchAddress addr s = .error (.fault (.addressRange addr)) := by
  simp only [latchAddress, h]

theorem latchAccumulator_of_empty (s : State) (har : s.ar = 0) (hin : s.inq = []) :
    latchAccumulator s = .error .inputExhausted := by
  simp only [latchAccumulator, har, hin, if_true]

theorem zero_eq_true_iff (s : State) : zero s = true ↔ s.acc = 0 := decide_eq_true_iff

/-- `jz` jumps where `ACC` is zero (42_control_flow.md R172). -/
theorem exec_jz (target : Int) (s : State) :
    exec (.jz target) s = .next { s with pc := if s.acc = 0 then target else s.pc + 1, tick := s.tick + 1 } := by
  simp only [exec, execJz, zero_eq_true_iff]
  split <;> rfl

/-- `jnz` jumps where `ACC` is not zero (42_control_flow.md R173). -/
theorem exec_jnz (target : Int) (s : State) :
    exec (.jnz target) s = .next { s with pc := if s.acc = 0 then s.pc + 1 else target, tick := s.tick + 1 } := by
  simp only [exec, execJnz, zero_eq_true_iff]
  split <;> rfl

end Sys2Proof.Machine
end

section
/-! PROOFS. The statements of 40_datapath_signals.md. -/

open Sys2Proof Sys2Proof.Machine

/-- Settles O25: `corr` inside and outside the one-step interval, and the signals by their `_ok` laws. -/
theorem correctionStep : Obligations.CorrectionStep := by
  unfold Obligations.CorrectionStep
  refine ⟨fun policy raw => ⟨fun h => ?_, fun h => ?_⟩, fun s op v hv => ?_, fun s op raw v hraw hv => ?_,
    fun s v => rfl, fun s har => ?_⟩
  · exact ⟨corr_eq_corr1 policy raw h, corr1_eq_wrap32 raw h, corr1_of_above raw, corr1_of_below raw,
      corr1_of_inBand raw⟩
  · exact ⟨if_neg h, corr_saturate raw h, if_neg h⟩
  · exact (noArgOp_ok op s _).mpr ⟨v, hv, rfl⟩
  · have hres : argResult s.par.ovfPolicy op s.acc (readCell s s.ar) = .ok v := by simp only [argResult, hraw, hv]
    exact (argOp_ok op s _).mpr ⟨v, hres, rfl⟩
  · exact (latchAccumulator_ok s _).mpr (.inr ⟨har, rfl⟩)

/-- Settles O27: the bounds of each raw result, `argResult_policy` for the independence of the policy, and the two ends
and the one overflow of `mul` evaluated. -/
theorem onlyMulLeavesTheOneStepInterval : Obligations.OnlyMulLeavesTheOneStepInterval := by
  unfold Obligations.OnlyMulLeavesTheOneStepInterval
  refine ⟨fun raw => (corr1_inBand_iff raw).symm, fun a b ha hb => ⟨fun op => ?_, ?_, ?_, ?_, fun hb0 => ?_, ?_, ?_⟩,
    by decide⟩
  · obtain ⟨hlow, hhigh⟩ := noArgRaw_bounds op a ha
    have hstep := noArgRaw_oneStep op a ha
    exact ⟨hlow, hhigh, fun p q => by rw [corr_oneStep p _ hstep, corr_oneStep q _ hstep]⟩
  · exact ⟨a + b, rfl, by omega, by omega⟩
  · exact ⟨a - b, rfl, by omega, by omega⟩
  · exact ⟨a * b, rfl, mul_bounds a b ha hb⟩
  · obtain ⟨heq, hrem⟩ := floor_spec a b hb0
    obtain ⟨hlow, hhigh⟩ := floorDiv_bounds a b ha hb0
    exact ⟨_, _, argRaw_div a b hb0, argRaw_mod a b hb0, heq, hrem, floorMod_inBand a b hb hb0, hlow, hhigh,
      floorDiv_eq_top_iff a b ha hb0⟩
  · exact fun op raw hop h => argRaw_oneStep op a b raw ha hb hop h
  · exact fun op p q hop => argResult_policy op p q a b ha hb hop

/-- Settles O28: the argument is a data address, and is latched, or is none, and ends the instruction at its first
signal. -/
theorem latchAddressChecksTheRange : Obligations.LatchAddressChecksTheRange := by
  unfold Obligations.LatchAddressChecksTheRange
  refine fun s addr => ⟨fun h => ?_, fun h => ?_⟩
  · exact (latchAddress_ok addr s _).mpr ⟨_, directAddress_of_valid s addr h, rfl⟩
  · have hnone := directAddress_of_invalid s addr h
    refine ⟨latchAddress_of_invalid s addr hnone, fun i rest hseq => ?_⟩
    rw [exec_of_signalSequence i s (by simp [hseq]), hseq, runSignals_latch_invalid addr rest s hnone]

/-- Settles O33: with `ACC` in the band the raw result is in the one-step interval, and leaves the band only at its
ends. -/
theorem incDecResults : Obligations.IncDecResults := by
  unfold Obligations.IncDecResults
  intro s hacc
  have hinc := noArgRaw_oneStep .inc s.acc hacc
  have hdec := noArgRaw_oneStep .dec s.acc hacc
  refine ⟨congrArg _ (runSignals_noArgOp .inc s hacc), congrArg _ (runSignals_noArgOp .dec s hacc),
    corr_eq_corr1 _ _ hinc, corr1_eq_wrap32 _ hinc, corr_eq_corr1 _ _ hdec, corr1_eq_wrap32 _ hdec,
    fun h => by rw [h]; rfl, fun h => wrap32_of_inBand _ ?_, fun h => by rw [h]; rfl, fun h => wrap32_of_inBand _ ?_⟩
  · omega
  · omega

/-- Settles O41: the floor quotient and remainder, whose corrected results differ from the raw ones only for the
quotient 2^31. -/
theorem divModResults : Obligations.DivModResults := by
  unfold Obligations.DivModResults
  intro s arg m h0 h1 hcell hm hacc hband
  obtain ⟨heq, hrem⟩ := floor_spec s.acc m hm
  have haddr := directAddress_of_valid s arg ⟨h0, h1⟩
  have hdiv := argResult_of_argRaw s.par.ovfPolicy .div s.acc m _ hacc hband nofun (argRaw_div s.acc m hm)
  have hmod := argResult_of_argRaw s.par.ovfPolicy .mod s.acc m _ hacc hband nofun (argRaw_mod s.acc m hm)
  rw [wrap32_of_inBand _ (floorMod_inBand s.acc m hband hm)] at hmod
  rw [← hcell] at hdiv hmod
  refine ⟨floorDiv s.acc m, floorMod s.acc m, heq, hrem, floorDiv_wraps_or_inBand s.acc m hacc hm, ?_, ?_⟩ <;>
    rw [← hcell]
  · exact congrArg _ (runSignals_argOp_ok .div arg _ _ s haddr hdiv)
  · exact congrArg _ (runSignals_argOp_ok .mod arg _ _ s haddr hmod)

/-- Settles O29: the three cases of `latch_accumulator`. -/
theorem latchAccumulatorReadsPortOrCell : Obligations.LatchAccumulatorReadsPortOrCell := by
  unfold Obligations.LatchAccumulatorReadsPortOrCell
  refine fun s => ⟨fun c rest har hin => ?_, latchAccumulator_of_empty s, fun har => ?_⟩
  · exact (latchAccumulator_ok s _).mpr (.inl ⟨har, c, rest, hin, rfl⟩)
  · exact (latchAccumulator_ok s _).mpr (.inr ⟨har, rfl⟩)

/-- Settles O34: the one signal of `mov` cannot fail, so its tick and the `PC` update follow. -/
theorem movResult : Obligations.MovResult := by
  unfold Obligations.MovResult
  exact fun s literal => congrArg Host.Outcome.next (runSignals_cons_ok (.setAccumulator literal) [] s _ rfl)

/-- Settles O44: the zero query decides `ACC = 0`, and both jumps ask it once. -/
theorem conditionalJumpResults : Obligations.ConditionalJumpResults := by
  unfold Obligations.ConditionalJumpResults
  exact fun s target => ⟨zero_eq_true_iff s, exec_jz target s, exec_jnz target s⟩
end

section
/-! PROOFS. The control cycle (41_control_cycle.md R140): one equation of `step` for each of its checks, how an
instruction that completes ends, and the accounts of one step and of a run. -/

namespace Sys2Proof.Machine

/-- The fetch finds no word exactly where `PC` is outside the program (41_control_cycle.md R142). -/
theorem fetchWord_eq_none (s : State) :
    fetchWord s = none ↔ s.pc < 0 ∨ (s.par.prog.length : Int) ≤ s.pc := by
  simp only [fetchWord]
  split
  · rw [List.getElem?_eq_none_iff]
    omega
  · simp only [true_iff]
    omega

theorem limitReached_of_lt (s : State) (h : s.icount < s.par.limit) : limitReached s = false :=
  decide_eq_false (Nat.not_le.mpr h)

/-- The first check of a step (41_control_cycle.md R148). -/
theorem step_at_limit (s : State) (hrun : s.status = .running) (hlim : s.par.limit ≤ s.icount) :
    step s = .next (raiseCondition .limitExceeded s) := by
  simp only [step, hrun, limitReached, hlim, decide_true, if_true]

/-- The second check of a step: the fetch (41_control_cycle.md R142). -/
theorem step_outside_program (s : State) (hrun : s.status = .running) (hlim : s.icount < s.par.limit)
    (hpc : s.pc < 0 ∨ (s.par.prog.length : Int) ≤ s.pc) :
    step s = .next (raiseCondition (.fault (.fetchRange s.pc)) s) := by
  simp only [step, hrun, limitReached_of_lt s hlim, (fetchWord_eq_none s).mpr hpc, Bool.false_eq_true, if_false,
    if_true]

/-- The third check of a step: the decode (60_exceptions.md R226). -/
theorem step_illegal (s : State) (w : Word40) (r : DecodeReject) (hrun : s.status = .running)
    (hlim : s.icount < s.par.limit) (hfetch : fetchWord s = some w) (hdec : decode w = .error r) :
    step s = .next (raiseCondition (.fault (.illegalInstruction s.pc)) s) := by
  simp only [step, hrun, limitReached_of_lt s hlim, hfetch, hdec, Bool.false_eq_true, if_false, if_true]

/-- All checks passed: the instruction is counted and executed (41_control_cycle.md R140, R141). -/
theorem step_legal (s : State) (w : Word40) (i : Instr) (hrun : s.status = .running)
    (hlim : s.icount < s.par.limit) (hfetch : fetchWord s = some w) (hdec : decode w = .ok i) :
    step s = exec i (countInstruction s) := by
  simp only [step, hrun, limitReached_of_lt s hlim, hfetch, hdec, Bool.false_eq_true, if_false, if_true]

/-- A running machine has a next state, whichever check ends the step (41_control_cycle.md R140). -/
theorem step_of_running (s : State) (hrun : s.status = .running) : ∃ t, step s = .next t := by
  by_cases hlim : s.par.limit ≤ s.icount
  · exact ⟨_, step_at_limit s hrun hlim⟩
  · have hlim : s.icount < s.par.limit := Nat.not_le.mp hlim
    cases hfetch : fetchWord s with
    | none => exact ⟨_, step_outside_program s hrun hlim ((fetchWord_eq_none s).mp hfetch)⟩
    | some w =>
      cases hdec : decode w with
      | error r => exact ⟨_, step_illegal s w r hrun hlim hfetch hdec⟩
      | ok i => exact step_legal s w i hrun hlim hfetch hdec ▸ exec_next i (countInstruction s)

/-- The classes that issue signals are those other than `halt` and the jumps (41_control_cycle.md R143). -/
theorem signalSequence_ne_nil (i : Instr) :
    signalSequence i ≠ [] ↔
      opClass i ≠ .halt ∧ opClass i ≠ .unconditionalJump ∧ opClass i ≠ .conditionalJump := by
  cases i <;> simp [signalSequence, opClass]

/-- A jump that is taken writes its argument to `PC`, unchecked, and costs one tick (41_control_cycle.md R145). -/
theorem exec_jump_taken (i : Instr) (s : State) (target : Int)
    (hi : i = .jmp target ∨ (i = .jz target ∧ s.acc = 0) ∨ (i = .jnz target ∧ s.acc ≠ 0)) :
    exec i s = .next { s with pc := target, tick := s.tick + 1 } := by
  rcases hi with rfl | ⟨rfl, hacc⟩ | ⟨rfl, hacc⟩
  · rfl
  · rw [exec_jz, if_pos hacc]
  · rw [exec_jnz, if_neg hacc]

/-- A jump that is not taken goes on to the next instruction, at the same cost (41_control_cycle.md R145). -/
theorem exec_jump_not_taken (i : Instr) (s : State) (target : Int)
    (hi : (i = .jz target ∧ s.acc ≠ 0) ∨ (i = .jnz target ∧ s.acc = 0)) :
    exec i s = .next { s with pc := s.pc + 1, tick := s.tick + 1 } := by
  rcases hi with ⟨rfl, hacc⟩ | ⟨rfl, hacc⟩
  · rw [exec_jz, if_neg hacc]
  · rw [exec_jnz, if_pos hacc]

/-- An instruction of a signal class that completes has issued its whole row: its class's ticks, and `PC + 1`
(41_control_cycle.md R144, R145). -/
theorem exec_signals_completed (i : Instr) (s t : State) (hi : signalSequence i ≠ []) (h : exec i s = .next t)
    (ht : t.status = .running) : t.tick = s.tick + (opClass i).ticks ∧ t.pc = s.pc + 1 := by
  rcases exec_cases i s with ⟨-, hlen, h'⟩ | ⟨target, rfl | rfl | rfl, -⟩ | ⟨rfl, -⟩
  · rw [h'] at h
    cases h
    obtain ⟨-, -, ⟨-, hpc, htick⟩ | ⟨c, hc, -⟩⟩ := runSignals_control (signalSequence i) s
    · exact ⟨hlen ▸ htick, hpc⟩
    · exact absurd (hc.symm.trans ht) c.status_ne_running
  all_goals exact absurd rfl hi

/-- `arg_op` fails by fatal faults only, operands outside the band included (40_datapath_signals.md R114). -/
theorem argResult_error_fault (policy : OvfPolicy) (op : ArgOp) (a b : Int) (c : Condition)
    (h : argResult policy op a b = .error c) : ∃ cause, c = .fault cause := by
  simp only [argResult] at h
  cases hraw : argRaw op a b with
  | ok raw =>
    rw [hraw] at h
    obtain ⟨-, -, hc⟩ := corr_error policy raw c h
    exact ⟨_, hc⟩
  | error d =>
    rw [hraw] at h
    cases h
    cases op with
    | add | sub | mul => cases hraw
    | div | mod =>
      simp only [argRaw] at hraw
      split at hraw <;> cases hraw
      exact ⟨_, rfl⟩

/-- No signal raises `Halted`: only `halt` does (60_exceptions.md R222). -/
theorem runSignal_error_ne_halted (sig : Signal) (s : State) (c : Condition) (h : runSignal sig s = .error c) :
    c.status ≠ .halted := by
  rcases runSignal_error sig s c h with
    ⟨addr, rfl, -⟩ | ⟨-, rfl, -⟩ | ⟨-, rfl, -⟩ | ⟨op, -, hcorr⟩ | ⟨op, -, hres⟩
  · exact nofun
  · exact nofun
  · exact nofun
  · obtain ⟨-, -, rfl⟩ := corr_error _ _ c hcorr
    exact nofun
  · obtain ⟨cause, rfl⟩ := argResult_error_fault _ op _ _ c hres
    exact nofun

theorem runSignals_ne_halted (sigs : List Signal) (s : State) (hs : s.status ≠ .halted) :
    (runSignals sigs s).status ≠ .halted := by
  induction sigs generalizing s with
  | nil => exact hs
  | cons sig rest ih =>
    cases hsig : runSignal sig s with
    | error c =>
      rw [runSignals_cons_error sig rest s c hsig]
      exact runSignal_error_ne_halted sig s c hsig
    | ok t =>
      rw [runSignals_cons_ok sig rest s t hsig]
      obtain ⟨-, -, -, -, hstatus⟩ := runSignal_frame sig s t hsig
      exact ih (tickOnce t) (hstatus ▸ hs)

/-- Only `halt` ends a run as `Halted` (60_exceptions.md R222). -/
theorem eq_halt_of_exec_halted (i : Instr) (s t : State) (hs : s.status = .running) (h : exec i s = .next t)
    (ht : t.status = .halted) : i = .halt := by
  have hne : s.status ≠ .halted := by simp [hs]
  rcases exec_cases i s with ⟨-, -, h'⟩ | ⟨target, -, h' | h'⟩ | ⟨hi, -⟩
  case inr.inr => exact hi
  all_goals rw [h'] at h; cases h
  · exact absurd ht (runSignals_ne_halted _ s hne)
  · exact absurd ht hne
  · exact absurd ht hne

/-- The machine is still running, or its run has ended at a `halt`: no instruction so far has failed. -/
def Unfailed (s : State) : Prop := s.status = .running ∨ s.status = .halted

theorem Unfailed.of_raise {c : Condition} {s : State} (h : Unfailed (raiseCondition c s)) : c = .halted := by
  cases c <;> simp [Unfailed, Condition.status] at h ⊢

/-- An instruction that does not fail costs its class's ticks (41_control_cycle.md R143). -/
theorem exec_ticks (i : Instr) (s t : State) (hs : s.status = .running) (h : exec i s = .next t) (ht : Unfailed t) :
    t.tick = s.tick + (opClass i).ticks := by
  rcases ht with ht | ht
  · rcases exec_cases i s with ⟨hne, -, -⟩ | ⟨target, hi, h'⟩ | ⟨rfl, h'⟩
    · obtain ⟨htick, -⟩ := exec_signals_completed i s t hne h ht
      exact htick
    · have hone : (opClass i).ticks = 1 := by rcases hi with rfl | rfl | rfl <;> rfl
      rw [hone]
      rcases h' with h' | h' <;> rw [h'] at h <;> cases h <;> rfl
    · rw [h'] at h
      cases h
      exact absurd ht (Condition.status_ne_running .halted)
  · obtain rfl := eq_halt_of_exec_halted i s t hs h ht
    cases h
    rfl

/-- A run of one step more begins with a step (41_control_cycle.md R149). -/
theorem core_run_succ_eq_next (k : Nat) (s t : State) (h : core.run (k + 1) s = .next t) :
    ∃ u, step s = .next u ∧ core.run k u = .next t := by
  by_cases hrun : s.status = .running
  · obtain ⟨u, hu⟩ := step_of_running s hrun
    exact ⟨u, hu, (core_run_succ k s u hu).symm.trans h⟩
  · rw [core_run_succ_terminal k s hrun] at h
    cases h

/-- A failure is terminal, so nothing on the way to an unfailed state has failed (60_exceptions.md R234). -/
theorem Unfailed.of_run (k : Nat) (s t : State) (h : core.run k s = .next t) (ht : Unfailed t) : Unfailed s := by
  cases k with
  | zero => cases h; exact ht
  | succ k =>
    obtain ⟨u, hstep, -⟩ := core_run_succ_eq_next k s t h
    obtain ⟨hrun, -⟩ := step_cases s u hstep
    exact .inl hrun

end Sys2Proof.Machine

namespace Sys2Proof.Safety

open Sys2Proof.Machine

theorem nextInstr_eq_some (s : State) (w : Word40) (i : Instr) (hrun : s.status = .running)
    (hlim : s.icount < s.par.limit) (hfetch : fetchWord s = some w) (hdec : decode w = .ok i) :
    nextInstr s = some i := by
  simp only [nextInstr, if_pos (And.intro hrun (limitReached_of_lt s hlim)), hfetch, hdec]

/-- The account of a step that does not fail: one instruction was executed, below the limit, at its class's cost
(41_control_cycle.md R141, R144). -/
theorem step_account (s t : State) (h : step s = .next t) (ht : Unfailed t) :
    ∃ i, nextInstr s = some i ∧ s.icount < s.par.limit ∧ t.icount = s.icount + 1 ∧
      t.tick = s.tick + (opClass i).ticks := by
  obtain ⟨hrun, ⟨-, rfl⟩ | ⟨hlim, ⟨-, rfl⟩ | ⟨w, hfetch, ⟨r, -, rfl⟩ | ⟨i, hdec, hexec⟩⟩⟩⟩ := step_cases s t h
  case inr.inr.inr =>
    obtain ⟨-, hic, -⟩ := exec_control i (countInstruction s) t hexec
    have htick := exec_ticks i (countInstruction s) t hrun hexec ht
    exact ⟨i, nextInstr_eq_some s w i hrun hlim hfetch hdec, hlim, hic, htick⟩
  all_goals cases ht.of_raise

theorem executedCost_succ (k : Nat) (s t : State) (i : Instr) (hi : nextInstr s = some i) (h : step s = .next t) :
    executedCost (k + 1) s = (opClass i).ticks + executedCost k t := by
  simp only [executedCost, hi, h]

theorem executedCount_succ (k : Nat) (s t : State) (i : Instr) (hi : nextInstr s = some i) (h : step s = .next t) :
    executedCount (k + 1) s = 1 + executedCount k t := by
  simp only [executedCount, hi, h]

/-- The account of a run in which nothing has failed: the accounts of its steps, summed (41_control_cycle.md R147). -/
theorem run_account (k : Nat) (s t : State) (h : core.run k s = .next t) (ht : Unfailed t) :
    t.tick = s.tick + executedCost k s ∧ t.icount = s.icount + executedCount k s := by
  induction k generalizing s with
  | zero => cases h; exact ⟨rfl, rfl⟩
  | succ k ih =>
    obtain ⟨u, hstep, hrest⟩ := core_run_succ_eq_next k s t h
    obtain ⟨i, hi, -, hic, htick⟩ := step_account s u hstep (.of_run k u t hrest ht)
    obtain ⟨htickRest, hicRest⟩ := ih u hrest
    rw [executedCost_succ k s u i hi hstep, executedCount_succ k s u i hi hstep]
    omega

/-- Below the limit every step that leaves the machine running uses up one count, and at the limit the next step is the
last (41_control_cycle.md R148, R150). -/
theorem run_terminates (n : Nat) (s : State) (hrun : s.status = .running) (hn : s.par.limit ≤ s.icount + n) :
    ∃ (k : Nat) (t : State), k ≤ n + 1 ∧ core.run k s = .next t ∧ t.status ≠ .running := by
  induction n generalizing s with
  | zero =>
    exact ⟨1, _, Nat.le_refl 1, core_run_succ 0 s _ (step_at_limit s hrun hn),
      Condition.status_ne_running .limitExceeded⟩
  | succ n ih =>
    obtain ⟨u, hstep⟩ := step_of_running s hrun
    by_cases hu : u.status = .running
    · obtain ⟨i, -, -, hic, -⟩ := step_account s u hstep (.inl hu)
      have hpar : u.par = s.par := step_par s u hstep
      obtain ⟨k, t, hk, hrest, ht⟩ := ih u hu (by rw [hpar]; omega)
      exact ⟨k + 1, t, by omega, (core_run_succ k s u hstep).trans hrest, ht⟩
    · exact ⟨1, u, by omega, core_run_succ 0 s u hstep, hu⟩

end Sys2Proof.Safety
end

section
/-! PROOFS. The statements of 41_control_cycle.md. -/

open Sys2Proof Sys2Proof.Machine Sys2Proof.Safety

/-- Settles O15: some check of a running state's step answers a next state. -/
theorem onlyRunningStatesHaveAStep : Obligations.OnlyRunningStatesHaveAStep := by
  unfold Obligations.OnlyRunningStatesHaveAStep
  exact fun s => ⟨step_of_running s, fun hterminal => if_neg hterminal⟩

/-- Settles O18, by induction on the instructions left before the limit. -/
theorem everyRunEnds : Obligations.EveryRunEnds := by
  unfold Obligations.EveryRunEnds
  exact fun s hrun hlim => run_terminates (s.par.limit - s.icount) s hrun (by omega)

/-- Settles O19: a halted run is one in which nothing has failed. -/
theorem ticksOfAHaltedRun : Obligations.TicksOfAHaltedRun := by
  unfold Obligations.TicksOfAHaltedRun
  exact fun k s t _ h ht => run_account k s t h (.inr ht)

/-- Settles O20: the rows of `halt` and the jumps one by one, and the signal classes by their sequences. -/
theorem dispatchFollowsTheClassTable : Obligations.DispatchFollowsTheClassTable := by
  unfold Obligations.DispatchFollowsTheClassTable
  intro i s _
  refine ⟨fun hi => ?_, fun a hi => ?_, fun a hi => ?_, fun a hi => ?_, fun hi => ?_⟩
  · cases i with
    | halt => rfl
    | _ => cases hi
  · exact exec_jump_taken i s a (.inl hi)
  · simp only [hi, exec_jz, zero_eq_true_iff]
  · simp only [hi, exec_jnz, zero_eq_true_iff]
  · have hseq : signalSequence i ≠ [] := (signalSequence_ne_nil i).mpr hi
    exact ⟨exec_of_signalSequence i s hseq, fun t h ht => exec_signals_completed i s t hseq h ht⟩

/-- Settles O45: the `PC` after each kind of instruction, and the fetch check of the next step, which sees the same
parameters and count. -/
theorem programCounterUpdate : Obligations.ProgramCounterUpdate := by
  unfold Obligations.ProgramCounterUpdate
  refine ⟨fun s => rfl, fun i s target hi => ⟨exec_jump_taken i s target hi, fun hrun hlim hout => ?_⟩,
    fun i s target hi => exec_jump_not_taken i s target hi, fun i s t _ hi h ht => ?_, fun i s t hlim h ht hout => ?_⟩
  · exact step_outside_program { s with pc := target, tick := s.tick + 1 } hrun hlim hout
  · rcases exec_cases i s with ⟨hseq, -, -⟩ | ⟨target, hjump, -⟩ | ⟨rfl, h'⟩
    · obtain ⟨-, hpc⟩ := exec_signals_completed i s t hseq h ht
      exact hpc
    · obtain ⟨hjmp, hjz, hjnz⟩ := hi target
      rcases hjump with hjump | hjump | hjump
      · exact absurd hjump hjmp
      · exact absurd hjump hjz
      · exact absurd hjump hjnz
    · rw [h'] at h
      cases h
      exact absurd ht (Condition.status_ne_running .halted)
  · obtain ⟨hpar, hic, -⟩ := exec_control i s t h
    exact step_outside_program t ht (by rw [hpar, hic]; exact hlim) (by rw [hpar]; exact hout)

/-- Settles O13: all checks pass, so the instruction is counted and executed. -/
theorem stepRunsTheDecodedInstruction : Obligations.StepRunsTheDecodedInstruction := by
  unfold Obligations.StepRunsTheDecodedInstruction
  exact fun s w i hrun hlim hpc hword hdec =>
    step_legal s w i hrun hlim ((fetchWord_eq_some s w).mpr ⟨hpc, hword⟩) hdec

/-- Settles O14: one equation of `step` for each check. -/
theorem checksBeforeTheInstruction : Obligations.ChecksBeforeTheInstruction := by
  unfold Obligations.ChecksBeforeTheInstruction
  refine fun s hrun => ⟨step_at_limit s hrun, step_outside_program s hrun, fun w r hlim hpc hword hdec => ?_⟩
  exact step_illegal s w r hrun hlim ((fetchWord_eq_some s w).mpr ⟨hpc, hword⟩) hdec
end

section
/-! PROOFS. The memory accesses said once (44_memory_access.md): how the direct and the indirect form reach the last
signal, and what that signal leaves in the memory when it writes a cell. -/

namespace Sys2Proof.Machine

section
variable {i : Instr} {last : Signal} {rest : List Signal} {s t : State} {arg p : Int}

/-- An argument that is no data address ends an instruction that latches it, with nothing changed but `STATUS`
(60_exceptions.md R225). -/
theorem exec_latch_invalid (hseq : signalSequence i = .latchAddress arg :: rest)
    (h : ¬ (0 ≤ arg ∧ arg < (s.par.memSize : Int))) :
    exec i s = .next { s with status := .faulted (.addressRange arg) } := by
  rw [exec_of_signalSequence i s (by simp [hseq]), hseq,
    runSignals_latch_invalid arg rest s (directAddress_of_invalid s arg h)]

/-- With a valid argument the direct form ends as its last signal does at that address, after one tick. -/
theorem exec_direct (hseq : signalSequence i = [.latchAddress arg, last])
    (h : 0 ≤ arg ∧ arg < (s.par.memSize : Int))
    (hlast : runSignals [last] { s with ar := arg.toNat, tick := s.tick + 1 } = t) : exec i s = .next t := by
  rw [exec_of_signalSequence i s (by simp [hseq]), hseq,
    runSignals_latch_valid arg _ _ s (directAddress_of_valid s arg h), hlast]

/-- With a valid argument and a valid pointer the indirect form ends as its last signal does at the pointer's value,
after two ticks. -/
theorem exec_indirect (hseq : signalSequence i = [.latchAddress arg, .addressByAddress, last])
    (h : 0 ≤ arg ∧ arg < (s.par.memSize : Int)) (hcell : readCell s arg.toNat = p)
    (hp : 0 ≤ p ∧ p < (s.par.memSize : Int))
    (hlast : runSignals [last] { s with ar := p.toNat, tick := s.tick + 2 } = t) : exec i s = .next t := by
  have hpointer : pointerAddress s arg.toNat = some p.toNat := hcell ▸ dataAddress_of_valid _ _ (hcell ▸ hp)
  rw [exec_of_signalSequence i s (by simp [hseq]), hseq,
    runSignals_indirect_valid arg _ _ _ s (directAddress_of_valid s arg h) hpointer, hlast]

/-- A pointer whose value is no data address ends the indirect form after one tick (the spec's decisions D10, D12). -/
theorem exec_indirect_invalid (hseq : signalSequence i = .latchAddress arg :: .addressByAddress :: rest)
    (h : 0 ≤ arg ∧ arg < (s.par.memSize : Int)) (hcell : readCell s arg.toNat = p)
    (hp : ¬ (0 ≤ p ∧ p < (s.par.memSize : Int))) :
    exec i s = .next { s with ar := arg.toNat, tick := s.tick + 1, status := .faulted (.addressRange p) } := by
  have hpointer : pointerAddress s arg.toNat = none := (dataAddress_eq_none _ _).mpr (hcell ▸ hp)
  rw [exec_of_signalSequence i s (by simp [hseq]), hseq,
    runSignals_indirect_invalid arg _ _ s (directAddress_of_valid s arg h) hpointer, hcell]
end

/-- The cells after a write: the cell written and, unchanged, all the others (20_memory.md R58). -/
theorem readCell_writeCell (s : State) (a b : Nat) (v : Int) (h : s.mem.Pairwise fun c d => c.1 < d.1) :
    readCell (writeCell a v s) b = if b = a then v else readCell s b := by
  split
  · next hb => rw [hb, readCell_writeCell_same s a v h]
  · next hb => exact readCell_writeCell_other s a b v hb

/-- The last signal of `store` and `st` at an ordinary cell, with the memory it leaves given by its form and its
reads (40_datapath_signals.md R112). -/
theorem runSignals_write_memory (s : State) (a n : Nat) (hport : a ≠ 1) (ha : a < s.par.memSize)
    (hwf : Memory.wf s.par.memFill s.par.memSize s.mem) :
    ∃ m, runSignals [.write] { s with ar := a, tick := n } =
        { s with ar := a, mem := m, tick := n + 1, pc := s.pc + 1 } ∧
      Memory.wf s.par.memFill s.par.memSize m ∧
      ∀ b, Memory.read s.par.memFill m b = if b = a then s.acc else readCell s b := by
  have ⟨hsorted, _⟩ := hwf
  exact ⟨(writeCell a s.acc s).mem, runSignals_write_cell { s with ar := a, tick := n } hport,
    Memory.wf_write _ _ _ a s.acc ha hwf, fun b => readCell_writeCell s a b s.acc hsorted⟩

end Sys2Proof.Machine
end

section
/-! PROOFS. The statements of 44_memory_access.md. -/

open Sys2Proof Sys2Proof.Machine

/-- Settles O35: the direct form, with the three ends of `latch_accumulator`. -/
theorem loadResults : Obligations.LoadResults := by
  unfold Obligations.LoadResults
  refine fun s arg => ⟨exec_latch_invalid rfl, fun h0 h1 => ?_, ?_, ?_⟩
  · have hcell : arg.toNat ≠ 0 := by omega
    exact exec_direct rfl ⟨h0.le, h1⟩ (runSignals_read_cell _ hcell)
  · rintro c rest rfl hsize hin
    exact exec_direct rfl ⟨le_rfl, by omega⟩ (runSignals_read_port _ c rest rfl hin)
  · rintro rfl hsize hin
    exact exec_direct rfl ⟨le_rfl, by omega⟩ (runSignals_read_empty _ rfl hin)

/-- Settles O36: the direct form, with the three ends of `write`. -/
theorem storeResults : Obligations.StoreResults := by
  unfold Obligations.StoreResults
  refine fun s arg => ⟨exec_latch_invalid rfl, fun h0 h1 hport hwf => ?_, ?_, ?_⟩
  · obtain ⟨m, hrun, hm⟩ := runSignals_write_memory s arg.toNat (s.tick + 1) (by omega) (by omega) hwf
    exact ⟨m, exec_direct rfl ⟨h0, h1⟩ hrun, hm⟩
  · rintro rfl hsize hlow hhigh
    exact exec_direct rfl ⟨by omega, by omega⟩ (runSignals_write_port _ rfl hlow hhigh)
  · rintro rfl hsize hbad
    exact exec_direct rfl ⟨by omega, by omega⟩ (runSignals_write_fault _ rfl hbad)

/-- Settles O37: the indirect form, with the check of the pointer and the three ends of `latch_accumulator`. -/
theorem ldResults : Obligations.LdResults := by
  unfold Obligations.LdResults
  refine fun s arg => ⟨exec_latch_invalid rfl, fun p h0 h1 hp =>
    ⟨exec_indirect_invalid rfl ⟨h0, h1⟩ hp, fun hp0 hp1 => ?_, ?_, ?_⟩⟩
  · have hcell : p.toNat ≠ 0 := by omega
    exact exec_indirect rfl ⟨h0, h1⟩ hp ⟨hp0.le, hp1⟩ (runSignals_read_cell _ hcell)
  · rintro c rest rfl hin
    exact exec_indirect rfl ⟨h0, h1⟩ hp ⟨le_rfl, by omega⟩ (runSignals_read_port _ c rest rfl hin)
  · rintro rfl hin
    exact exec_indirect rfl ⟨h0, h1⟩ hp ⟨le_rfl, by omega⟩ (runSignals_read_empty _ rfl hin)

/-- Settles O38: the indirect form, with the check of the pointer and the three ends of `write`. -/
theorem stResults : Obligations.StResults := by
  unfold Obligations.StResults
  refine fun s arg => ⟨exec_latch_invalid rfl, fun p h0 h1 hp =>
    ⟨exec_indirect_invalid rfl ⟨h0, h1⟩ hp, fun hp0 hp1 hport hwf => ?_, ?_, ?_⟩⟩
  · obtain ⟨m, hrun, hm⟩ := runSignals_write_memory s p.toNat (s.tick + 2) (by omega) (by omega) hwf
    exact ⟨m, exec_indirect rfl ⟨h0, h1⟩ hp ⟨hp0, hp1⟩ hrun, hm⟩
  · rintro rfl hsize hlow hhigh
    exact exec_indirect rfl ⟨h0, h1⟩ hp ⟨by omega, by omega⟩ (runSignals_write_port _ rfl hlow hhigh)
  · rintro rfl hsize hbad
    exact exec_indirect rfl ⟨h0, h1⟩ hp ⟨by omega, by omega⟩ (runSignals_write_fault _ rfl hbad)

/-- Settles O51: the cell reads as `ACC` after the `store`, and the `load` reads that cell, whatever else the later
state holds. -/
theorem directRoundTrip : Obligations.DirectRoundTrip := by
  unfold Obligations.DirectRoundTrip
  intro s a hwf h2 hsize
  obtain ⟨-, hstore, -, -⟩ := storeResults s a
  obtain ⟨mem, hexec, -, hread⟩ := hstore (by omega) hsize (by omega) hwf
  have hstored := (hread a.toNat).trans (if_pos rfl)
  refine ⟨_, hexec, fun m hpar hsame => ?_⟩
  obtain ⟨-, hload, -, -⟩ := loadResults m a
  exact ⟨_, hload (by omega) (hpar ▸ hsize), hsame.trans hstored, rfl⟩

/-- Settles O52: the four kinds of pointer. The `st` changes the cell that the pointer names and no other, so the `ld`
meets the same pointer again, except where the pointer names itself and the `ld` follows the value stored. -/
theorem indirectRoundTrip : Obligations.IndirectRoundTrip := by
  unfold Obligations.IndirectRoundTrip
  intro s a p hwf h0 h1 hp
  obtain ⟨-, hst⟩ := stResults s a
  obtain ⟨-, hstCell, hstPort, -⟩ := hst p h0 h1 hp
  refine ⟨fun hp2 hpsize hpa => ?_, ?_, ?_, ?_⟩
  · obtain ⟨mem, hexec, -, hread⟩ := hstCell (by omega) hpsize (by omega) hwf
    have hpointer := (hread a.toNat).trans ((if_neg (by omega)).trans hp)
    have hnamed := (hread p.toNat).trans (if_pos rfl)
    refine ⟨_, hexec, fun m hpar hsameA hsameP => ?_⟩
    obtain ⟨-, hld⟩ := ldResults m a
    obtain ⟨-, hldCell, -, -⟩ := hld p h0 (hpar ▸ h1) (hsameA.trans hpointer)
    exact ⟨_, hldCell (by omega) (hpar ▸ hpsize), hsameP.trans hnamed, rfl⟩
  · rintro rfl hsize hlow hhigh
    exact ⟨_, _, hstPort rfl hsize hlow hhigh,
      exec_indirect rfl ⟨h0, h1⟩ hp ⟨zero_le_one, Nat.one_lt_cast.mpr hsize⟩ (runSignals_read_cell _ one_ne_zero), rfl,
      rfl⟩
  · rintro c rest rfl hne hin
    obtain ⟨mem, hexec, -, hread⟩ := hstCell le_rfl (by omega) (by omega) hwf
    have hpointer := (hread a.toNat).trans ((if_neg (by omega)).trans hp)
    exact ⟨_, _, hexec,
      exec_indirect rfl ⟨h0, h1⟩ hpointer ⟨le_rfl, h0.trans_lt h1⟩ (runSignals_read_port _ c rest rfl hin), rfl,
      (hread 0).trans (if_pos rfl)⟩
  · rintro rfl h2
    obtain ⟨mem, hexec, -, hread⟩ := hstCell h0 h1 (by omega) hwf
    have hself := (hread p.toNat).trans (if_pos rfl)
    refine ⟨_, hexec, hself, fun hacc0 hacc1 v => ?_, fun hbad => ?_⟩
    · have hcell : s.acc.toNat ≠ 0 := by omega
      exact ⟨_, exec_indirect rfl ⟨h0, h1⟩ hself ⟨hacc0.le, hacc1⟩ (runSignals_read_cell _ hcell), rfl⟩
    · exact exec_indirect_invalid rfl ⟨h0, h1⟩ hself hbad
end

section
/-! PROOFS. The arithmetic instructions said once (45_arithmetic.md R207): the two ends of `arg_op` at a valid address,
the equation of each operation's result, and what an instruction that completes has computed. -/

namespace Sys2Proof.Machine

/-- A product is corrected as the policy says (45_arithmetic.md R202). -/
theorem argResult_mul (policy : OvfPolicy) (a b : Int) : argResult policy .mul a b = corr policy (a * b) := rfl

theorem argResult_div_zero (policy : OvfPolicy) (a : Int) :
    argResult policy .div a 0 = .error (.fault .divideByZero) := rfl

theorem argResult_mod_zero (policy : OvfPolicy) (a : Int) :
    argResult policy .mod a 0 = .error (.fault .divideByZero) := rfl

/-- A quotient is corrected where the divisor is not zero (45_arithmetic.md R203). -/
theorem argResult_div_eq_ok (policy : OvfPolicy) (a b v : Int) :
    argResult policy .div a b = .ok v ↔ b ≠ 0 ∧ corr policy (floorDiv a b) = .ok v := by
  by_cases hb : b = 0 <;> simp [argResult, argRaw, hb]

/-- A remainder is corrected where the divisor is not zero (45_arithmetic.md R204). -/
theorem argResult_mod_eq_ok (policy : OvfPolicy) (a b v : Int) :
    argResult policy .mod a b = .ok v ↔ b ≠ 0 ∧ corr policy (floorMod a b) = .ok v := by
  by_cases hb : b = 0 <;> simp [argResult, argRaw, hb]

section
variable {i : Instr} {op : ArgOp} {s t : State} {arg v : Int} {c : Condition}

/-- An arithmetic instruction with a valid argument completes where its operation does (45_arithmetic.md R207). -/
theorem exec_argOp_ok (hseq : signalSequence i = [.latchAddress arg, .argOp op])
    (h : 0 ≤ arg ∧ arg < (s.par.memSize : Int))
    (hv : argResult s.par.ovfPolicy op s.acc (readCell s arg.toNat) = .ok v) :
    exec i s = .next { s with ar := arg.toNat, acc := v, tick := s.tick + 2, pc := s.pc + 1 } := by
  rw [exec_of_signalSequence i s (by simp [hseq]), hseq,
    runSignals_argOp_ok op arg v _ s (directAddress_of_valid s arg h) hv]

/-- An arithmetic instruction whose operation fails has latched its argument and counted one tick (the spec's decision
D12). -/
theorem exec_argOp_error (hseq : signalSequence i = [.latchAddress arg, .argOp op])
    (h : 0 ≤ arg ∧ arg < (s.par.memSize : Int))
    (hc : argResult s.par.ovfPolicy op s.acc (readCell s arg.toNat) = .error c) :
    exec i s = .next { s with ar := arg.toNat, tick := s.tick + 1, status := c.status } := by
  rw [exec_of_signalSequence i s (by simp [hseq]), hseq,
    runSignals_argOp_error op arg _ c s (directAddress_of_valid s arg h) hc]

/-- An arithmetic instruction that leaves the machine running has put its operation's result in `ACC`, with the old
`ACC` as left operand and the cell as right one (45_arithmetic.md R206). -/
theorem exec_argOp_completed (hseq : signalSequence i = [.latchAddress arg, .argOp op]) (h : exec i s = .next t)
    (ht : t.status = .running) :
    argResult s.par.ovfPolicy op s.acc (readCell s arg.toNat) = .ok t.acc ∧ t.mem = s.mem := by
  rw [exec_of_signalSequence i s (by simp [hseq]), hseq] at h
  cases h
  rcases runSignals_argOp_cases op arg s with ⟨-, hrun⟩ | ⟨a, v, haddr, hv, hrun⟩ | ⟨a, c, -, -, hrun⟩ <;>
    rw [hrun] at ht ⊢
  · cases ht
  · obtain ⟨rfl, -⟩ := (dataAddress_eq_some _ _ _).mp haddr
    exact ⟨hv, rfl⟩
  · exact absurd ht c.status_ne_running
end

end Sys2Proof.Machine
end

section
/-! PROOFS. The statements of 45_arithmetic.md. -/

open Sys2Proof Sys2Proof.Machine

/-- Settles O39: with both operands in the band the sum and the difference are corrected by `wrap32` under every
policy. -/
theorem addSubResults : Obligations.AddSubResults := by
  unfold Obligations.AddSubResults
  refine fun s arg => ⟨fun h0 h1 hacc hcell => ?_, fun h => ⟨exec_latch_invalid rfl h, exec_latch_invalid rfl h⟩⟩
  have hadd := argResult_of_argRaw s.par.ovfPolicy .add s.acc _ _ hacc hcell nofun rfl
  have hsub := argResult_of_argRaw s.par.ovfPolicy .sub s.acc _ _ hacc hcell nofun rfl
  exact ⟨exec_argOp_ok rfl ⟨h0, h1⟩ hadd, exec_argOp_ok rfl ⟨h0, h1⟩ hsub⟩

/-- Settles O40: the instruction ends as the correction of the product does, inside the one-step interval and, under
each policy, outside it. -/
theorem mulResults : Obligations.MulResults := by
  unfold Obligations.MulResults
  refine fun s arg => ⟨exec_latch_invalid rfl, ?_⟩
  rintro product h0 h1 rfl
  refine ⟨fun h => exec_argOp_ok rfl ⟨h0, h1⟩ ?_, fun hout hpolicy => exec_argOp_ok rfl ⟨h0, h1⟩ ?_,
    fun hout hpolicy => exec_argOp_error (c := .fault .arithmeticOverflow) rfl ⟨h0, h1⟩ ?_⟩ <;>
    rw [argResult_mul]
  · by_cases hin : OneStep (s.acc * readCell s arg.toNat)
    · exact corr_oneStep _ _ hin
    · rw [h.resolve_left hin]
      exact if_neg hin
  · rw [hpolicy, corr_saturate _ hout]
  · rw [hpolicy]
    exact if_neg hout

/-- Settles O42: the address is checked by the first signal, the divisor by the second. -/
theorem divModFaults : Obligations.DivModFaults := by
  unfold Obligations.DivModFaults
  refine fun s arg => ⟨fun h0 h1 hzero => ?_, fun h => ⟨exec_latch_invalid rfl h, exec_latch_invalid rfl h⟩⟩
  have hdiv := argResult_div_zero s.par.ovfPolicy s.acc
  have hmod := argResult_mod_zero s.par.ovfPolicy s.acc
  rw [← hzero] at hdiv hmod
  exact ⟨exec_argOp_error rfl ⟨h0, h1⟩ hdiv, exec_argOp_error rfl ⟨h0, h1⟩ hmod⟩

/-- Settles O43: an instruction that leaves the machine running has computed its operation's result, which for a
division says that the divisor was not zero. -/
theorem operandOrder : Obligations.OperandOrder := by
  unfold Obligations.OperandOrder
  rintro s t arg m - ht rfl
  refine ⟨fun h => exec_argOp_completed (op := .add) rfl h ht, fun h => exec_argOp_completed (op := .sub) rfl h ht,
    fun h => exec_argOp_completed (op := .mul) rfl h ht, fun h => ?_, fun h => ?_⟩
  · obtain ⟨hresult, hmem⟩ := exec_argOp_completed rfl h ht
    obtain ⟨-, hcorr⟩ := (argResult_div_eq_ok _ _ _ _).mp hresult
    exact ⟨hcorr, hmem⟩
  · obtain ⟨hresult, hmem⟩ := exec_argOp_completed rfl h ht
    obtain ⟨-, hcorr⟩ := (argResult_mod_eq_ok _ _ _ _).mp hresult
    exact ⟨hcorr, hmem⟩
end

section
/-! PROOFS. How an instruction stops the run (60_exceptions.md R231, R233): every signal but the last sets `AR` at most,
and a failing signal changes nothing, so what is left is the start state with `AR`, `TICK` and `STATUS` replaced. And a
`TICK` that nothing reads (R238). -/

namespace Sys2Proof.Machine

/-- A signal that sets `AR` and nothing else when it completes. -/
def SetsOnlyAr (sig : Signal) : Prop := ∀ s t, runSignal sig s = .ok t → ∃ a, t = { s with ar := a }

theorem setsOnlyAr_latchAddress (addr : Int) : SetsOnlyAr (.latchAddress addr) := fun s t h => by
  obtain ⟨a, -, ht⟩ := (latchAddress_ok addr s t).mp h
  exact ⟨a, ht⟩

theorem setsOnlyAr_addressByAddress : SetsOnlyAr .addressByAddress := fun s t h => by
  obtain ⟨p, -, ht⟩ := (addressByAddress_ok s t).mp h
  exact ⟨p, ht⟩

/-- Every signal before the last of an instruction only addresses (41_control_cycle.md R143). -/
theorem setsOnlyAr_of_mem_dropLast (i : Instr) : ∀ sig ∈ (signalSequence i).dropLast, SetsOnlyAr sig := by
  cases i with
  | inc | dec | mov _ | jmp _ | jz _ | jnz _ | halt => exact nofun
  | load addr | store addr | add addr | sub addr | mul addr | div addr | mod addr =>
    exact List.forall_mem_singleton.mpr (setsOnlyAr_latchAddress addr)
  | ld addr | st addr =>
    exact List.forall_mem_cons.mpr
      ⟨setsOnlyAr_latchAddress addr, List.forall_mem_singleton.mpr setsOnlyAr_addressByAddress⟩

/-- `t` is `s` stopped by one of the signals `sigs`: the failing signal raised its condition in `s` with the `AR` and
the ticks of the signals before it (60_exceptions.md R231, R233). -/
def StoppedBy (sigs : List Signal) (s t : State) : Prop :=
  ∃ sig ∈ sigs, ∃ ar tick c, runSignal sig { s with ar := ar, tick := tick } = .error c ∧
    t = { s with ar := ar, tick := tick, status := c.status } ∧
    s.tick ≤ tick ∧ tick < s.tick + sigs.length ∧ (tick = s.tick → ar = s.ar)

/-- A stop after a first signal that only set `AR`. -/
theorem StoppedBy.cons {sig : Signal} {rest : List Signal} {s t : State} {a : Nat}
    (h : StoppedBy rest { s with ar := a, tick := s.tick + 1 } t) : StoppedBy (sig :: rest) s t := by
  obtain ⟨failing, hmem, ar, tick, c, hfail, ht, hlow, hhigh, -⟩ := h
  simp only at hlow hhigh
  exact ⟨failing, List.mem_cons_of_mem _ hmem, ar, tick, c, hfail, ht, by omega,
    by rw [List.length_cons]; omega, fun htick => by omega⟩

/-- A sequence whose signals before the last only set `AR` leaves the machine running, or is stopped by one of them. -/
theorem runSignals_stopped (sigs : List Signal) (s : State) (hsigs : ∀ sig ∈ sigs.dropLast, SetsOnlyAr sig)
    (hrun : s.status = .running) (hstop : (runSignals sigs s).status ≠ .running) :
    StoppedBy sigs s (runSignals sigs s) := by
  induction sigs generalizing s with
  | nil => exact absurd hrun hstop
  | cons sig rest ih =>
    cases hsig : runSignal sig s with
    | error c =>
      rw [runSignals_cons_error sig rest s c hsig]
      exact ⟨sig, List.mem_cons_self, s.ar, s.tick, c, hsig, rfl, le_rfl, by simp, fun _ => rfl⟩
    | ok t =>
      rw [runSignals_cons_ok sig rest s t hsig] at hstop ⊢
      cases rest with
      | nil =>
        obtain ⟨-, -, -, -, hstatus⟩ := runSignal_frame sig s t hsig
        exact absurd (hstatus.trans hrun) hstop
      | cons next rest =>
        rw [List.dropLast_cons_cons, List.forall_mem_cons] at hsigs
        obtain ⟨hfirst, hrest⟩ := hsigs
        obtain ⟨a, rfl⟩ := hfirst s t hsig
        exact (ih { s with ar := a, tick := s.tick + 1 } hrest hrun hstop).cons

/-- An instruction that stops the run is `halt`, or one of its signals failed (60_exceptions.md R231). -/
theorem exec_stopped (i : Instr) (s t : State) (hrun : s.status = .running) (h : exec i s = .next t)
    (hstop : t.status ≠ .running) :
    (i = .halt ∧ t = raiseCondition .halted s) ∨
      (StoppedBy (signalSequence i) s t ∧ (signalSequence i).length = (opClass i).ticks) := by
  rcases exec_cases i s with ⟨-, hlen, h'⟩ | ⟨_, -, h' | h'⟩ | ⟨hi, h'⟩ <;> rw [h'] at h <;> cases h
  · exact .inr ⟨runSignals_stopped _ s (setsOnlyAr_of_mem_dropLast i) hrun hstop, hlen⟩
  · exact absurd hrun hstop
  · exact absurd hrun hstop
  · exact .inl ⟨hi, rfl⟩

/-- Only `mul` multiplies (41_control_cycle.md R143). -/
theorem eq_mul_of_argOp_mul_mem (i : Instr) (h : .argOp .mul ∈ signalSequence i) : ∃ a, i = .mul a := by
  cases i with
  | mul a => exact ⟨a, rfl⟩
  | _ => simp [signalSequence] at h

/-- With `ACC` and the cells in the band, the only signal that overflows is the product (40_datapath_signals.md R119,
R120). -/
theorem eq_argOp_mul_of_overflow (sig : Signal) (s : State) (hacc : InBand s.acc)
    (hcells : ∀ a : Nat, InBand (readCell s a)) (h : runSignal sig s = .error (.fault .arithmeticOverflow)) :
    sig = .argOp .mul := by
  rcases runSignal_error sig s _ h with ⟨_, hc, -⟩ | ⟨-, hc, -⟩ | ⟨-, hc, -⟩ | ⟨op, -, hcorr⟩ | ⟨op, rfl, hres⟩
  · cases hc
  · cases hc
  · cases hc
  · obtain ⟨hout, -, -⟩ := corr_error _ _ _ hcorr
    exact absurd (noArgRaw_oneStep op s.acc hacc) hout
  · rcases argResult_error _ op _ _ _ hacc (hcells s.ar) hres with ⟨hc, -⟩ | ⟨-, rfl, -⟩
    · cases hc
    · rfl

/-- Of the instructions only `mul` overflows (60_exceptions.md R230). -/
theorem eq_mul_of_exec_overflow (i : Instr) (s t : State) (hrun : s.status = .running) (hacc : InBand s.acc)
    (hcells : ∀ a : Nat, InBand (readCell s a)) (h : exec i s = .next t)
    (hov : t.status = .faulted .arithmeticOverflow) : ∃ a, i = .mul a := by
  rcases exec_stopped i s t hrun h (by simp [hov]) with
    ⟨-, rfl⟩ | ⟨⟨sig, hmem, ar, tick, c, hfail, rfl, -⟩, -⟩
  · cases hov
  · have hc : c = .fault .arithmeticOverflow := by cases c <;> cases hov; rfl
    obtain rfl : sig = .argOp .mul :=
      eq_argOp_mul_of_overflow sig { s with ar := ar, tick := tick } hacc hcells (hc ▸ hfail)
    exact eq_mul_of_argOp_mul_mem i hmem

/-- A `mul` that overflows has a product outside the one-step interval, under the policy `fault`
(40_datapath_signals.md R120). -/
theorem exec_mul_overflow (arg : Int) (s t : State) (hrun : s.status = .running) (h : exec (.mul arg) s = .next t)
    (hov : t.status = .faulted .arithmeticOverflow) :
    s.par.ovfPolicy = .fault ∧ ¬ OneStep (s.acc * readCell s arg.toNat) := by
  cases h
  rcases runSignals_argOp_cases .mul arg s with ⟨-, ht⟩ | ⟨a, v, -, -, ht⟩ | ⟨a, c, haddr, hres, ht⟩ <;>
    rw [ht] at hov
  · cases hov
  · exact absurd (hrun.symm.trans hov) nofun
  · obtain ⟨rfl, -⟩ := (dataAddress_eq_some _ _ _).mp haddr
    rw [argResult_mul] at hres
    obtain ⟨hout, hpolicy, -⟩ := corr_error _ _ c hres
    exact ⟨hpolicy, hout⟩

/-- `s` with `n` ticks more. -/
def addTicks (n : Nat) (s : State) : State := { s with tick := s.tick + n }

/-- `TICK` is read by nothing but its own increment (10_state.md R24). -/
theorem addTicks_unread (n : Nat) : Unread (addTicks n) where
  signal sig s := by
    cases sig with
    | setAccumulator value => rfl
    | latchAddress addr =>
      simp only [runSignal, latchAddress, directAddress, addTicks]
      split <;> rfl
    | addressByAddress =>
      simp only [runSignal, addressByAddress, pointerAddress, readCell, addTicks]
      split <;> rfl
    | latchAccumulator =>
      by_cases har : s.ar = 0
      · simp only [runSignal, latchAccumulator, addTicks, har, if_true]
        split <;> rfl
      · simp only [runSignal, latchAccumulator, addTicks, har, if_false]
        rfl
    | write =>
      by_cases har : s.ar = 1
      · simp only [runSignal, writeAccumulator, addTicks, har, if_true]
        split <;> rfl
      · simp only [runSignal, writeAccumulator, addTicks, har, if_false]
        rfl
    | noArgOp op =>
      simp only [runSignal, noArgOp, addTicks]
      split <;> rfl
    | argOp op =>
      simp only [runSignal, argOp, readCell, addTicks]
      split <;> rfl
  tick s := congrArg (fun k => { s with tick := k }) (Nat.add_right_comm s.tick n 1)
  advance _ := rfl
  jump _ _ := rfl
  count _ := rfl
  raise _ _ := rfl
  par _ := rfl
  acc _ := rfl
  pc _ := rfl
  icount _ := rfl
  status _ := rfl

end Sys2Proof.Machine
end

section
/-! PROOFS. The statements of 60_exceptions.md. -/

open Sys2Proof Sys2Proof.Machine

/-- Settles O21: the state left is the state before with `AR`, `TICK` and `STATUS` replaced, and the failing signal's
tick is missing from the instruction's row. -/
theorem conditionsArePrecise : Obligations.ConditionsArePrecise := by
  unfold Obligations.ConditionsArePrecise
  intro i s t hrun h hstop
  rcases exec_stopped i s t hrun h hstop with
    ⟨hi, rfl⟩ | ⟨⟨_, -, ar, tick, c, -, rfl, hlow, hhigh, har⟩, hlen⟩
  · exact ⟨rfl, rfl, rfl, rfl, rfl, rfl, rfl, le_rfl, fun hne => absurd hi hne, fun _ => rfl⟩
  · exact ⟨rfl, rfl, rfl, rfl, rfl, rfl, rfl, hlow, fun _ => hlen ▸ hhigh, har⟩

/-- Settles O22: more ticks are a change that nothing reads. -/
theorem tickInfluencesNothing : Obligations.TickInfluencesNothing := by
  unfold Obligations.TickInfluencesNothing
  exact fun s t n h => (addTicks_unread n).of_step s t h

/-- Settles O32: with operands in the band only the product of `mul` overflows, and then its correction has failed. -/
theorem overflowIsMulUnderFaultPolicy : Obligations.OverflowIsMulUnderFaultPolicy := by
  unfold Obligations.OverflowIsMulUnderFaultPolicy
  intro i s t hrun hacc hcells h hov
  obtain ⟨a, rfl⟩ := eq_mul_of_exec_overflow i s t hrun hacc hcells h hov
  obtain ⟨hpolicy, hout⟩ := exec_mul_overflow a s t hrun h hov
  exact ⟨hpolicy, a, rfl, hout⟩

/-- Settles O46: the word of `halt` decodes to `halt`, which is counted and raises `Halted`. -/
theorem haltStep : Obligations.HaltStep := by
  unfold Obligations.HaltStep
  exact fun s hrun hlim hpc hword =>
    step_legal s (encode .halt) .halt hrun hlim ((fetchWord_eq_some s _).mpr ⟨hpc, hword⟩) (decode_encode .halt rfl)
end

section
/-! PROOFS. The statements of 70_reset_and_hazards.md: what reset accepts and what it builds. -/

namespace Sys2Proof.Machine

theorem exists_boot_eq_ok (p : Params) : (∃ s, boot p = .ok s) ↔ parameterRefusal p = none := by
  simp only [boot_eq_ok, exists_and_left, exists_eq, and_true]

/-- The memory after reset is the image, with `MEM_FILL` in every cell after it (70_reset_and_hazards.md R251, R252). -/
theorem readCell_resetState (p : Params) (a : Nat) :
    readCell (resetState p) a = p.dataImage[a]?.getD p.memFill :=
  calc readCell (resetState p) a
      = Memory.read p.memFill (Memory.ofImage p.memFill 0 p.dataImage) (0 + a) := by rw [Nat.zero_add]; rfl
    _ = p.dataImage[a]?.getD p.memFill := Memory.read_ofImage p.memFill 0 p.dataImage a

end Sys2Proof.Machine

open Sys2Proof Sys2Proof.Machine

/-- Settles O8: an accepted `boot` gives `resetState`, whose fields are the parameters and whose cells are the image
followed by the fill. -/
theorem bootBuildsTheFirstState : Obligations.BootBuildsTheFirstState := by
  unfold Obligations.BootBuildsTheFirstState
  intro p s h
  obtain ⟨-, rfl⟩ := (boot_eq_ok p s).mp h
  refine ⟨rfl, rfl, rfl, rfl, rfl, rfl, rfl, rfl, rfl, fun a v hv => ?_, fun a hlen => ?_⟩
  · rw [readCell_resetState, hv, Option.getD_some]
  · rw [readCell_resetState, List.getElem?_eq_none hlen, Option.getD_none]

/-- Settles O9: reset accepts where no check refuses; the statement lists the checks with the limit's before the
largest memory size's. -/
theorem bootAcceptsExactly : Obligations.BootAcceptsExactly := by
  unfold Obligations.BootAcceptsExactly
  intro p
  rw [exists_boot_eq_ok, parameterRefusal_eq_none]
  exact and_congr_right fun _ => and_left_comm
end

section
/-! PROOFS. The statement of 00_scope.md section 6.1: what `wrap32` gives. -/

namespace Sys2Proof.Machine

/-- `wrap32` takes from its argument the multiple of 2^32 that the division by 2^32 leaves out of the remainder. -/
theorem wrap32_eq_add_mul (v : Int) : wrap32 v = v + -((v + 2147483648) / 4294967296) * 4294967296 := by
  simp only [wrap32]
  omega

theorem wrap32_add_mul (v k : Int) : wrap32 (v + k * 4294967296) = wrap32 v := by
  simp only [wrap32, Int.add_right_comm v, Int.add_mul_emod_self_right]

end Sys2Proof.Machine

open Sys2Proof Sys2Proof.Machine

/-- Settles O26: a congruent `u` has the same `wrap32` as `v`, and `wrap32` leaves a `u` of the band alone. -/
theorem wrapIsTheBandRepresentative : Obligations.WrapIsTheBandRepresentative := by
  unfold Obligations.WrapIsTheBandRepresentative
  intro v
  refine ⟨wrap32_inBand v, ⟨_, wrap32_eq_add_mul v⟩, fun u k hband hu => ?_⟩
  calc u = wrap32 u := (wrap32_of_inBand u hband).symm
    _ = wrap32 (v + k * 4294967296) := by rw [hu]
    _ = wrap32 v := wrap32_add_mul v k
end
